-- ==== Sys2Proof/Word.lean ====
section
/-! DEFINITION. The words of the block: the datum, the address and the opaque values it carries. -/

namespace Sys2Proof

/-- `ADDR_BITS`, the width of an address (00_scope.md R5). A reducible name, since types depend on it. -/
@[simp, reducible] def Config.addrBits : Nat := 16

/-- `DATA_BITS`, the width of a datum (00_scope.md R5). -/
@[simp, reducible] def Config.dataBits : Nat := 8

/-- `u8`, the datum of every transfer (20_memory.md R31). -/
abbrev Byte := BitVec Config.dataBits

/-- `u16`, an address of the one address space (20_memory.md R30). -/
abbrev Addr := BitVec Config.addrBits

/-- A value the block carries without looking into it: fields 3 to 5 of the save record
(42_snapshot.md R106). DESIGN CHOICE (log 5): any finite text, since the record is a text. -/
abbrev Blob := List Char

/-- The identity of an external collaborator a reference is bound to (10_state.md R22, R23). -/
abbrev Ref := Nat

end Sys2Proof
end

