-- ==== Sys2Proof/Config.lean ====
section
/-! DEFINITION. Config: the constants of 00_scope.md R5, the open parameters of R6, the messages of the
Video and I/O ports, and the free values the collaborators and the flag holders supply. -/

namespace Sys2Proof

/-- The legal values of the control register `ramSize` (10_state.md R14: "a three-valued type"). -/
inductive RamSize where
  | k8
  | k16
  | k32
deriving DecidableEq, Repr, Inhabited

/-- `RAM_SIZES`, the legal RAM sizes in bytes, ascending (00_scope.md R5). -/
@[simp, reducible] def Config.ramSizes : Vector Nat 3 := #v[8192, 16384, 32768]

/-- The RAM size in bytes. -/
def RamSize.bytes : RamSize → Nat
  | .k8 => Config.ramSizes[0]
  | .k16 => Config.ramSizes[1]
  | .k32 => Config.ramSizes[2]

/-- What the block sends to the Video collaborator (10_state.md R22; 92_eei_decisions.md D1). -/
inductive VideoMsg where
  | read (off : Nat)
  | write (off : Nat) (v : Byte)
  | reset
deriving DecidableEq, Repr

/-- What the block sends to the I/O collaborator (10_state.md R23; 92_eei_decisions.md D1). -/
inductive IoMsg where
  | read (off : Nat)
  | write (off : Nat) (v : Byte)
  | reset
  | saveState
  | restoreState (s : Blob)
deriving DecidableEq, Repr

/-- One event of the observable trace: a message and the collaborator it goes to (00_scope.md R8, R9). -/
inductive Event where
  | video (target : Ref) (m : VideoMsg)
  | io (target : Ref) (m : IoMsg)
deriving DecidableEq, Repr

namespace Config

/-! ### 00_scope.md R5: constants (unaudited literals, log 21)

The two widths stand in Word.lean, since the words depend on them, and `RAM_SIZES` above. What R5 marks as derived is
computed from the rest. -/

@[simp, reducible] def ramBase : Nat := 0x0000
/-- `RAM_MAX`, the largest of `RAM_SIZES`. -/
@[simp, reducible] def ramMax : Nat := ramSizes[2]
@[simp, reducible] def videoBase : Nat := 0x8000
@[simp, reducible] def videoLast : Nat := 0x83FF
@[simp, reducible] def videoSize : Nat := videoLast - videoBase + 1
@[simp, reducible] def romLowBase : Nat := 0xC000
@[simp, reducible] def romLowLast : Nat := 0xE7FF
@[simp, reducible] def romLowSize : Nat := romLowLast - romLowBase + 1
@[simp, reducible] def ioBase : Nat := 0xE800
@[simp, reducible] def ioLast : Nat := 0xEFFF
@[simp, reducible] def ioSize : Nat := ioLast - ioBase + 1
@[simp, reducible] def romHighBase : Nat := 0xF000
@[simp, reducible] def romHighLast : Nat := 0xFFFF
@[simp, reducible] def romHighSize : Nat := romHighLast - romHighBase + 1
/-- `ROM_SIZE`: one packed buffer of both windows. A reducible name, since a type depends on it. -/
@[simp, reducible] def romSize : Nat := romLowSize + romHighSize

/-! ### 00_scope.md R6: parameters the source leaves open

No value is chosen for any of them (92_eei_decisions.md D3 to D6). A state carries the values its block was
created with (`Params`), so a statement about every state is a statement about every value; the block that
`State.reset` creates takes the constants below, which have no body. Log 1. -/

/-- The open values of one block, fixed when it is created. -/
structure Params where
  /-- `UNMAPPED_READ`, the sentinel byte (D3). -/
  unmappedRead : Byte
  /-- `RAM_FILL`, the fill byte (D4). -/
  ramFill : Byte
  /-- `RAM_SIZE_INIT`, the RAM size at power-on (D5). -/
  ramSizeInit : RamSize
  /-- `ROM_INIT`, the ROM contents at power-on (D6). -/
  romInit : Vector Byte romSize
deriving DecidableEq, Repr

opaque unmappedRead : Byte
opaque ramFill : Byte
opaque ramSizeInit : RamSize
opaque romInit : Vector Byte romSize

/-- The parameters of the block that `State.reset` creates. -/
def params : Params := ⟨unmappedRead, ramFill, ramSizeInit, romInit⟩

/-- The collaborators `State.reset` binds (70_reset_and_hazards.md R130, `POWER_ON(Video, IO)`). -/
opaque videoRef : Ref
opaque ioRef : Ref

/-- `HEX_SPELLING`: numbers to digit strings and back (42_snapshot.md R107, D19). Nothing else is known of it. The
defaults only show that a spelling with these laws exists, as many strokes as the number says. -/
structure HexSpelling where
  spell : Nat → List Char := fun n => List.replicate n '1'
  read : List Char → Option Nat := fun t => some t.length
  /-- "reading back what was written gives the same number" (42_snapshot.md R107). -/
  read_spell : ∀ n, read (spell n) = some n := by simp
  /-- DEDUCED (log 17): a string of digits (00_scope.md R6) holds no separator of the record (42_snapshot.md R106). -/
  no_separator : ∀ n, ';' ∉ spell n ∧ ',' ∉ spell n := by simp
deriving Inhabited

opaque hexSpelling : HexSpelling

/-! ### Free values

The collaborators and the holders of the two flags are oracles with hidden state, which may change on any
event or on its own (00_scope.md R9; 92_eei_decisions.md D27). What they supply is an uninterpreted function
of everything they were sent and of the number of port events served. Log 4. -/

/-- What an oracle's answer may depend on. -/
structure History where
  turn : Nat
  trace : List Event
  flagOut : List (Blob × Blob)
deriving DecidableEq, Repr

/-- The byte the Video collaborator answers to `Video.read(off)` (40_bus_access.md R81(h)). -/
opaque videoAnswer : Ref → History → Nat → Byte
/-- The byte the I/O collaborator answers to `IO.read(off)`. -/
opaque ioAnswer : Ref → History → Nat → Byte
/-- What `IO.saveState()` answers (10_state.md R23). -/
opaque ioSaved : Ref → History → Blob
/-- The machine's `irqFlag` and `nmiFlag`, supplied by their holders (42_snapshot.md R105). -/
opaque irqFlag : History → Blob
opaque nmiFlag : History → Blob

end Config
end Sys2Proof
end

