-- ==== Sys2Proof/Syntax.lean ====
section
/-! DEFINITION. Syntax: the operations of the block (30_encoding.md R66), its address patterns (R62 to R65), and
what a requester hands to a port. One constructor of `Instr` per row of spec/opcode_table.json. -/

namespace Sys2Proof

/-- The save record as the 5-tuple of 42_snapshot.md R106. The size is a number: a record handed to RESTORE
may carry any (R109). -/
structure SaveRecord where
  ramSize : Nat
  ram : List Byte
  irq : Blob
  nmi : Blob
  io : Blob
deriving DecidableEq, Repr

/-- The record operand of RESTORE: the tuple, or its text form (42_snapshot.md R106, R109). -/
inductive RecordOperand where
  | tuple (r : SaveRecord)
  | text (t : List Char)
deriving DecidableEq, Repr

/-- The seven operations and the reserved code (format `OPW`), then the fourteen region-select patterns (format
`ADDR16`), whose operand is the field of bits the pattern leaves free. -/
inductive Instr where
  | read (a : Addr)
  | write (a : Addr) (v : Byte)
  | reset
  | resize (n : BitVec 16)
  | loadRom (b : Addr) (bytes : List Byte)
  | save
  | restore (r : RecordOperand)
  | reservedOp7 (x : BitVec 29)
  | selRam8k (x : BitVec 13)
  | selRam16k (x : BitVec 14)
  | selRam32k (x : BitVec 15)
  | selRomLowA (x : BitVec 13)
  | selRomLowB (x : BitVec 11)
  | selRomHigh (x : BitVec 12)
  | selVideo (x : BitVec 10)
  | selIo (x : BitVec 11)
  | selNone2000 (x : BitVec 13)
  | selNone4000 (x : BitVec 14)
  | selNone8400 (x : BitVec 10)
  | selNone8800 (x : BitVec 11)
  | selNone9000 (x : BitVec 12)
  | selNoneA000 (x : BitVec 13)
deriving DecidableEq, Repr

/-- The operand that travels beside an operation word (30_encoding.md R66, R74). -/
inductive SideBand where
  | none
  | bytes (bs : List Byte)
  | record (r : RecordOperand)
deriving DecidableEq, Repr

/-- What a requester hands to a port: an operation word with its side-band operand, or an address alone, which
the address decoder selects a region for (30_encoding.md R60; log 2). -/
inductive Request where
  | opw (w : BitVec 32) (side : SideBand)
  | addr16 (a : BitVec 16)
deriving DecidableEq, Repr

end Sys2Proof
end

