-- ==== Sys2Proof/Decode.lean ====
section
/-! DEFINITION. Decode: from a request to an instruction or a named rejection, the encoder back, and the text form
of the save record (30_encoding.md R61 to R69; 42_snapshot.md R106, R109). -/

namespace Sys2Proof

/-! ### RAM sizes and save records -/

/-- The RAM size of a number of bytes (30_encoding.md R67, R69). -/
def RamSize.ofBytes? (n : Nat) : Option RamSize :=
  if n = RamSize.k8.bytes then some .k8
  else if n = RamSize.k16.bytes then some .k16
  else if n = RamSize.k32.bytes then some .k32
  else none

/-- A list less its first `n` elements, if it has that many. Halving keeps the evaluation shallow; `fuel` bounds the
halvings, and `n` of it is enough (Laws: `dropExact_eq`). -/
def dropExact {α : Type} : (fuel n : Nat) → List α → Option (List α)
  | 0, n, xs => if n = 0 then some xs else none
  | f + 1, n, xs =>
    if n = 0 then some xs
    else if n = 1 then
      match xs with
      | [] => none
      | _ :: ys => some ys
    else
      match dropExact f (n / 2) xs with
      | some ys => dropExact f (n - n / 2) ys
      | none => none

/-- Whether a list has exactly `n` elements (Laws: `hasLength_iff`). -/
def hasLength {α : Type} (n : Nat) (xs : List α) : Bool :=
  match dropExact n n xs with
  | some ys => ys.isEmpty
  | none => false

/-- The RAM size of a well-formed record: the size field is legal and the RAM field has that many bytes
(42_snapshot.md R109). -/
def SaveRecord.size? (r : SaveRecord) : Option RamSize :=
  match RamSize.ofBytes? r.ramSize with
  | some rs => if hasLength rs.bytes r.ram then some rs else none
  | none => none

/-- The pieces of a text between the separators; one piece more than separators. -/
def splitAtSep (sep : Char) : List Char → List (List Char)
  | [] => [[]]
  | c :: cs =>
    if c = sep then [] :: splitAtSep sep cs
    else match splitAtSep sep cs with
      | [] => [[c]]
      | w :: ws => (c :: w) :: ws

/-- The pieces joined by the separator. -/
def joinSep (sep : Char) : List (List Char) → List Char
  | [] => []
  | [w] => w
  | w :: ws => w ++ sep :: joinSep sep ws

/-- The RAM elements of a text record: each a numeral in 0..255, or the record is malformed (R109). -/
def readBytes (h : Config.HexSpelling) : List (List Char) → Option (List Byte)
  | [] => some []
  | w :: ws =>
    match h.read w, readBytes h ws with
    | some k, some bs => if k < 2 ^ Config.dataBits then some (BitVec.ofNat Config.dataBits k :: bs) else none
    | _, _ => none

/-- The text form: five fields in fixed order between semicolons, the RAM bytes between commas (R106).
DESIGN CHOICE (log 17): no line ending is written. -/
def SaveRecord.toText (h : Config.HexSpelling) (r : SaveRecord) : List Char :=
  joinSep ';' [h.spell r.ramSize, joinSep ',' (r.ram.map fun b => h.spell b.toNat), r.irq, r.nmi, r.io]

/-- Reading the text form back; a text without exactly five fields is malformed (R109). DESIGN CHOICE (log 17):
everything after the fourth semicolon is field 5, a line ending included (91_not_in_source.md N13). -/
def SaveRecord.ofText? (h : Config.HexSpelling) (t : List Char) : Option SaveRecord :=
  match splitAtSep ';' t with
  | [f1, f2, f3, f4, f5] =>
    match h.read f1, readBytes h (splitAtSep ',' f2) with
    | some n, some bs => some ⟨n, bs, f3, f4, f5⟩
    | _, _ => none
  | _ => none

/-- The record an operand of RESTORE stands for, if it stands for one. -/
def RecordOperand.record? (h : Config.HexSpelling) : RecordOperand → Option SaveRecord
  | .tuple r => some r
  | .text t => SaveRecord.ofText? h t

/-! ### Operation words, format OPW -/

/-- Why a request is no instruction (30_encoding.md R68, R74). -/
inductive DecodeError where
  | reservedEncoding
  | sideBandMismatch
deriving DecidableEq, Repr

/-- Field `op`, bits 31:29 (30_encoding.md R66). -/
def opField (w : BitVec 32) : BitVec 3 := w.extractLsb' 29 3
/-- Field `rsv`, bits 28:24. -/
def rsvField (w : BitVec 32) : BitVec 5 := w.extractLsb' 24 5
/-- Field `arg16`, bits 23:8 (30_encoding.md R67). -/
def arg16Field (w : BitVec 32) : BitVec 16 := w.extractLsb' 8 16
/-- Field `data8`, bits 7:0. -/
def data8Field (w : BitVec 32) : BitVec 8 := w.extractLsb' 0 8

/-- An operation that takes no side-band operand. -/
def plainOp (i : Instr) : SideBand → Except DecodeError Instr
  | .none => .ok i
  | .bytes _ => .error .sideBandMismatch
  | .record _ => .error .sideBandMismatch

/-- Rejects the word unless its must-be-zero fields are zero (30_encoding.md R68). -/
def guardZero (zero : Bool) (r : Except DecodeError Instr) : Except DecodeError Instr :=
  if zero then r else .error .reservedEncoding

/-- The operation an operation word asks for (30_encoding.md R66 to R68). -/
def decodeOpw (w : BitVec 32) (side : SideBand) : Except DecodeError Instr :=
  let arg := arg16Field w
  let rsv0 := rsvField w == 0#5
  let data0 := data8Field w == 0#8
  let all0 := rsv0 && data0 && arg == 0#16
  match (opField w).toNat with
  | 0 => guardZero (rsv0 && data0) (plainOp (.read arg) side)
  | 1 => guardZero rsv0 (plainOp (.write arg (data8Field w)) side)
  | 2 => guardZero all0 (plainOp .reset side)
  | 3 => guardZero (rsv0 && data0) (plainOp (.resize arg) side)
  | 4 => guardZero (rsv0 && data0)
      (match side with
        | .bytes bs => .ok (.loadRom arg bs)
        | .none => .error .sideBandMismatch
        | .record _ => .error .sideBandMismatch)
  | 5 => guardZero all0 (plainOp .save side)
  | 6 => guardZero all0
      (match side with
        | .record r => .ok (.restore r)
        | .none => .error .sideBandMismatch
        | .bytes _ => .error .sideBandMismatch)
  | _ =>
    match side with
    | .none => .ok (.reservedOp7 (w.extractLsb' 0 29))
    | .bytes _ => .error .reservedEncoding
    | .record _ => .error .reservedEncoding

/-! ### Addresses, format ADDR16 -/

/-- The region-select row an address fits, for the RAM size in force (30_encoding.md R61 to R65). The rows are
tried in the order of spec/opcode_table.json; the last one is what the others leave over. -/
def decodeAddr16 (rs : RamSize) (a : BitVec 16) : Instr :=
  if rs = .k8 ∧ a.extractLsb' 13 3 = 0b000#3 then .selRam8k (a.extractLsb' 0 13)
  else if rs = .k16 ∧ a.extractLsb' 14 2 = 0b00#2 then .selRam16k (a.extractLsb' 0 14)
  else if rs = .k32 ∧ a.extractLsb' 15 1 = 0b0#1 then .selRam32k (a.extractLsb' 0 15)
  else if a.extractLsb' 13 3 = 0b110#3 then .selRomLowA (a.extractLsb' 0 13)
  else if a.extractLsb' 11 5 = 0b11100#5 then .selRomLowB (a.extractLsb' 0 11)
  else if a.extractLsb' 12 4 = 0b1111#4 then .selRomHigh (a.extractLsb' 0 12)
  else if a.extractLsb' 10 6 = 0b100000#6 then .selVideo (a.extractLsb' 0 10)
  else if a.extractLsb' 11 5 = 0b11101#5 then .selIo (a.extractLsb' 0 11)
  else if rs = .k8 ∧ a.extractLsb' 13 3 = 0b001#3 then .selNone2000 (a.extractLsb' 0 13)
  else if rs ≠ .k32 ∧ a.extractLsb' 14 2 = 0b01#2 then .selNone4000 (a.extractLsb' 0 14)
  else if a.extractLsb' 10 6 = 0b100001#6 then .selNone8400 (a.extractLsb' 0 10)
  else if a.extractLsb' 11 5 = 0b10001#5 then .selNone8800 (a.extractLsb' 0 11)
  else if a.extractLsb' 12 4 = 0b1001#4 then .selNone9000 (a.extractLsb' 0 12)
  else .selNoneA000 (a.extractLsb' 0 13)

/-- The decoder, total on every request. -/
def decode (rs : RamSize) : Request → Except DecodeError Instr
  | .opw w side => decodeOpw w side
  | .addr16 a => .ok (decodeAddr16 rs a)

/-! ### The encoder -/

/-- An operation word from its fields; `rsv` is 00000 (30_encoding.md R66). -/
def opWord (op : BitVec 3) (arg : BitVec 16) (data : BitVec 8) : BitVec 32 := op ++ 0b00000#5 ++ arg ++ data

/-- The request that stands for an instruction: its word with its side-band operand, or its address. -/
def encode : Instr → Request
  | .read a => .opw (opWord 0b000#3 a 0#8) .none
  | .write a v => .opw (opWord 0b001#3 a v) .none
  | .reset => .opw (opWord 0b010#3 0#16 0#8) .none
  | .resize n => .opw (opWord 0b011#3 n 0#8) .none
  | .loadRom b bytes => .opw (opWord 0b100#3 b 0#8) (.bytes bytes)
  | .save => .opw (opWord 0b101#3 0#16 0#8) .none
  | .restore r => .opw (opWord 0b110#3 0#16 0#8) (.record r)
  | .reservedOp7 x => .opw (0b111#3 ++ x) .none
  | .selRam8k x => .addr16 (0b000#3 ++ x)
  | .selRam16k x => .addr16 (0b00#2 ++ x)
  | .selRam32k x => .addr16 (0b0#1 ++ x)
  | .selRomLowA x => .addr16 (0b110#3 ++ x)
  | .selRomLowB x => .addr16 (0b11100#5 ++ x)
  | .selRomHigh x => .addr16 (0b1111#4 ++ x)
  | .selVideo x => .addr16 (0b100000#6 ++ x)
  | .selIo x => .addr16 (0b11101#5 ++ x)
  | .selNone2000 x => .addr16 (0b001#3 ++ x)
  | .selNone4000 x => .addr16 (0b01#2 ++ x)
  | .selNone8400 x => .addr16 (0b100001#6 ++ x)
  | .selNone8800 x => .addr16 (0b10001#5 ++ x)
  | .selNone9000 x => .addr16 (0b1001#4 ++ x)
  | .selNoneA000 x => .addr16 (0b101#3 ++ x)

/-- The RAM sizes for which a row of the opcode table is in force: its `condition` column. -/
def Instr.activeAt (rs : RamSize) : Instr → Bool
  | .selRam8k _ => rs == .k8
  | .selRam16k _ => rs == .k16
  | .selRam32k _ => rs == .k32
  | .selNone2000 _ => rs == .k8
  | .selNone4000 _ => rs != .k32
  | .read _ => true
  | .write _ _ => true
  | .reset => true
  | .resize _ => true
  | .loadRom _ _ => true
  | .save => true
  | .restore _ => true
  | .reservedOp7 _ => true
  | .selRomLowA _ => true
  | .selRomLowB _ => true
  | .selRomHigh _ => true
  | .selVideo _ => true
  | .selIo _ => true
  | .selNone8400 _ => true
  | .selNone8800 _ => true
  | .selNone9000 _ => true
  | .selNoneA000 _ => true

/-! ### Table words -/

/-- A record that any block can restore: the smallest RAM, all zero, and empty opaque fields. It stands beside
a bare RESTORE word, which carries no record of its own (log 15). -/
def blankRecord : SaveRecord := ⟨RamSize.k8.bytes, List.replicate RamSize.k8.bytes 0, [], [], []⟩

/-- The side-band operand set beside a bare operation word: none, an empty payload, or the blank record. -/
def tableSide (w : BitVec 32) : SideBand :=
  match (opField w).toNat with
  | 4 => .bytes []
  | 6 => .record (.tuple blankRecord)
  | _ => .none

/-- What the decoder reads from a bare word of spec/opcode_table.json: 32 bits an operation word, 16 bits an
address. Which row an address below 0x8000 fits depends on the RAM size; a bare word names none, and it is read
for 8192 bytes (log 16). -/
def decodeTableWord (nbits w : Nat) : Option Instr :=
  if nbits = 32 then
    match decodeOpw (BitVec.ofNat 32 w) (tableSide (BitVec.ofNat 32 w)) with
    | .ok i => some i
    | .error _ => none
  else if nbits = 16 then some (decodeAddr16 .k8 (BitVec.ofNat 16 w))
  else none

end Sys2Proof
end

