-- ==== Sys2Proof/WellFormed.lean ====
section
/-! DEFINITION. WellFormed: which instructions have operands the spec gives a meaning to (30_encoding.md R68, R69;
42_snapshot.md R109). Everything else an instruction's fields could get wrong is ruled out by their widths. -/

namespace Sys2Proof

/-- The operands are ones the spec gives a meaning to: a legal RAM size, a well-formed record, no reserved code. -/
def Instr.wf : Instr → Bool
  | .resize n => (RamSize.ofBytes? n.toNat).isSome
  | .restore r =>
    match r.record? Config.hexSpelling with
    | some rec => rec.size?.isSome
    | none => false
  | .reservedOp7 _ => false
  | .read _ => true
  | .write _ _ => true
  | .reset => true
  | .loadRom _ _ => true
  | .save => true
  | .selRam8k _ => true
  | .selRam16k _ => true
  | .selRam32k _ => true
  | .selRomLowA _ => true
  | .selRomLowB _ => true
  | .selRomHigh _ => true
  | .selVideo _ => true
  | .selIo _ => true
  | .selNone2000 _ => true
  | .selNone4000 _ => true
  | .selNone8400 _ => true
  | .selNone8800 _ => true
  | .selNone9000 _ => true
  | .selNoneA000 _ => true

end Sys2Proof
end

