-- ==== Sys2Proof/Machine/State.lean ====
section
/-! DEFINITION. State: the state of the block (10_state.md R10), what its ports hold and show (00_scope.md R9), the
outcomes that are no next state, and power-on (70_reset_and_hazards.md R130). -/

namespace Sys2Proof.Machine

/-- A store as its listed bytes: indices strictly rising, none of them the byte an unlisted index reads as. -/
abbrev Memory := List Host.Cell

/-- What the address decoder answers: a region and an offset in it, or no region (20_memory.md R36). -/
inductive Select where
  | ram (off : Nat)
  | rom (off : Nat)
  | video (off : Nat)
  | io (off : Nat)
  | none
deriving DecidableEq, Repr

/-- What the operation just performed returned to its requester (00_scope.md R9: "the value each READ returns" and
"the record SAVE returns"; for an address alone, the selection). -/
inductive Response where
  | none
  | byte (v : Byte)
  | record (r : SaveRecord)
  | selected (sel : Select)
deriving DecidableEq, Repr

/-- One thing that happens at the block's ports: a request, two requests at once (70_reset_and_hazards.md R139), or
the teardown of the block (R133). -/
inductive PortEvent where
  | request (r : Request)
  | overlap (r₁ r₂ : Request)
  | teardown
deriving DecidableEq, Repr

structure State where
  /-- The open values this block was created with (00_scope.md R6). The model's own field. -/
  params : Config.Params
  /-- The control register `ramSize` (10_state.md R14). -/
  ramSize : RamSize
  /-- The RAM buffer, by index (10_state.md R17). An unlisted index reads as `RAM_FILL`. -/
  ram : Memory
  /-- The packed ROM buffer, by offset (10_state.md R19). An unlisted offset reads as its byte of `ROM_INIT`. -/
  rom : Memory
  /-- The reference to the Video collaborator (10_state.md R22). -/
  video : Ref
  /-- The reference to the I/O collaborator (10_state.md R23). -/
  io : Ref
  /-- The ghost flag of the RESIZE window (10_state.md R24). -/
  window : Bool
  /-- False once the block was torn down (70_reset_and_hazards.md R133). The model's own field. -/
  live : Bool
  /-- What the ports will bring, next one first (70_reset_and_hazards.md R139). The model's own field. -/
  pending : List PortEvent
  /-- The events sent to the collaborators, oldest first (00_scope.md R8, R9). An observation. -/
  trace : List Event
  /-- The pairs (irqFlag, nmiFlag) handed back to their holders, oldest first (42_snapshot.md R108). An
  observation. -/
  flagOut : List (Blob × Blob)
  /-- What the last operation returned (00_scope.md R9). An observation. -/
  response : Response
  /-- How many port events were served: the argument of the free values (log 4). The model's own field. -/
  turn : Nat
deriving DecidableEq, Repr

/-- The exceptions of the block: none (60_exceptions.md R115, "The set of exception causes is empty"). -/
inductive Fault where
deriving DecidableEq, Repr

/-- The requests the spec gives no meaning to (00_scope.md R8, `refuse`; 60_exceptions.md R116). Each is safe: the
run stops, and nothing can be proved from it. -/
inductive Refusal where
  /-- An instruction without a meaning yet: only `exec`'s refused arms would raise it, and there is none. Safe. -/
  | notModelled (mnemonic : String)
  /-- A reserved operation word: raised by `step` for a word the decoder rejects and by `execReservedOp7`
  (30_encoding.md R68). Safe. -/
  | reservedEncoding
  /-- A word beside which another kind of operand stands than its operation takes: raised by `step`
  (30_encoding.md R66, R74; log 15). Safe. -/
  | sideBandMismatch
  /-- RESIZE to a size outside the set: raised by `execResize` (41_host_control.md R93). Safe. -/
  | illegalRamSize
  /-- RESIZE after the window closed: raised by `execResize` (41_host_control.md R94). Safe. -/
  | resizeOutsideWindow
  /-- RESTORE of a malformed record: raised by `execRestore` (42_snapshot.md R109). Safe. -/
  | malformedRecord
  /-- Two operations at once: raised by `step` (70_reset_and_hazards.md R139). Safe. -/
  | overlappingOperations
  /-- A request after teardown: raised by `step` (70_reset_and_hazards.md R133). Safe. -/
  | afterTeardown
deriving DecidableEq, Repr

/-- POWER_ON(Video, IO): the block as it is created with the open values `p` (70_reset_and_hazards.md R130). Nothing
is listed in `ram`, so every byte is `RAM_FILL`, nor in `rom`, so every byte is that of `ROM_INIT`. -/
def State.powerOn (p : Config.Params) (video io : Ref) : State where
  params := p
  ramSize := p.ramSizeInit
  ram := []
  rom := []
  video := video
  io := io
  window := true
  live := true
  pending := []
  trace := []
  flagOut := []
  response := .none
  turn := 0

/-- The block right after it is created, for the parameters of Config, of which nothing is known (log 1). -/
def State.reset : State := State.powerOn Config.params Config.videoRef Config.ioRef

end Sys2Proof.Machine
end

