-- ==== Sys2Proof/Machine/Operands.lean ====
section
/-! DEFINITION. Operands: the address decoder (20_memory.md R36) and the targets of LOADROM (41_host_control.md
R96). -/

namespace Sys2Proof.Machine

/-- `decode(a)`: the region that serves an address, and the offset in it. The tests are made in the stated order of
precedence; the first that matches wins (20_memory.md R36, R41). -/
def select (rs : RamSize) (a : Addr) : Select :=
  let n := a.toNat
  if Config.ramBase ≤ n ∧ n < Config.ramBase + rs.bytes then .ram (n - Config.ramBase)
  else if Config.romLowBase ≤ n ∧ n ≤ Config.romLowLast then .rom (n - Config.romLowBase)
  else if Config.romHighBase ≤ n ∧ n ≤ Config.romHighLast then .rom (n - Config.romHighBase + Config.romLowSize)
  else if Config.videoBase ≤ n ∧ n ≤ Config.videoLast then .video (n - Config.videoBase)
  else if Config.ioBase ≤ n ∧ n ≤ Config.ioLast then .io (n - Config.ioBase)
  else .none

/-- Where in the ROM buffer a byte of a LOADROM payload goes: `t` is an unbounded integer, and a target outside
both ROM windows has no place (41_host_control.md R96, R97). -/
def romTarget (t : Nat) : Option Nat :=
  if Config.romLowBase ≤ t ∧ t ≤ Config.romLowLast then some (t - Config.romLowBase)
  else if Config.romHighBase ≤ t ∧ t ≤ Config.romHighLast then some (t - Config.romHighBase + Config.romLowSize)
  else none

end Sys2Proof.Machine
end

