-- ==== Sys2Proof/Machine/Ops.lean ====
section
/-! DEFINITION. Ops: memories in canonical form, the reads and writes of the block's two buffers, and the shared
operations on the ports. Taking an exception and returning from one are not here, because the block has neither:
60_exceptions.md R115 (no cause exists), R123 (no trap entry), R124 (no trap return). -/

namespace Sys2Proof.Machine

/-! ### Memories

`base` says what an unlisted index reads as. -/

/-- The byte at an index. -/
def Memory.read (base : Nat → Byte) : Memory → Nat → Byte
  | [], a => base a
  | (b, w) :: m, a => if a = b then w else Memory.read base m a

/-- The memory with one byte replaced; a byte equal to what the index reads as unlisted is not listed. -/
def Memory.write (base : Nat → Byte) : Memory → Nat → Byte → Memory
  | [], a, v => if v = base a then [] else [(a, v)]
  | (b, w) :: m, a, v =>
    if a < b then (if v = base a then (b, w) :: m else (a, v) :: (b, w) :: m)
    else if a = b then (if v = base a then m else (a, v) :: m)
    else (b, w) :: Memory.write base m a v

/-- The memory whose bytes from index `i` on are those of a list. -/
def Memory.ofBytesFrom (base : Nat → Byte) : Nat → List Byte → Memory
  | _, [] => []
  | i, v :: vs =>
    if v = base i then Memory.ofBytesFrom base (i + 1) vs else (i, v) :: Memory.ofBytesFrom base (i + 1) vs

/-- The first `n` bytes, in ascending order. -/
def Memory.toBytes (base : Nat → Byte) (m : Memory) (n : Nat) : List Byte :=
  (List.range n).map (Memory.read base m)

/-- Canonical form from index `lo` on: indices strictly rising and below `bound`, no byte that an unlisted index
would read as anyway. -/
def Memory.wfFrom (base : Nat → Byte) (bound : Nat) : Nat → Memory → Bool
  | _, [] => true
  | lo, (a, v) :: m =>
    decide (lo ≤ a) && decide (a < bound) && decide (v ≠ base a) && Memory.wfFrom base bound (a + 1) m

/-- Canonical form of a memory with indices 0..bound-1. -/
def Memory.wf (base : Nat → Byte) (bound : Nat) (m : Memory) : Bool := Memory.wfFrom base bound 0 m

/-! ### The two buffers -/

/-- What a RAM byte reads as that nothing has written since the last fill: `RAM_FILL` (10_state.md R18, R26). -/
def ramBase (p : Config.Params) : Nat → Byte := fun _ => p.ramFill

/-- What a ROM byte reads as that no LOADROM has written: its byte of `ROM_INIT` (10_state.md R21). -/
def romBase (p : Config.Params) : Nat → Byte :=
  fun k => if h : k < Config.romSize then p.romInit[k] else 0

/-- `ram[i]` (00_scope.md R8). -/
def State.ramAt (s : State) (i : Nat) : Byte := s.ram.read (ramBase s.params) i

/-- `rom[k]` (00_scope.md R8). -/
def State.romAt (s : State) (k : Nat) : Byte := s.rom.read (romBase s.params) k

/-! ### Updates, one for each thing an operation may change -/

def State.setRamSize (s : State) (rs : RamSize) : State := { s with ramSize := rs }
def State.setRam (s : State) (m : Memory) : State := { s with ram := m }
def State.setRom (s : State) (m : Memory) : State := { s with rom := m }
def State.setLive (s : State) (b : Bool) : State := { s with live := b }
def State.setPending (s : State) (q : List PortEvent) : State := { s with pending := q }
/-- `emit E` appends to the observable trace (00_scope.md R8). -/
def State.emit (s : State) (e : Event) : State := { s with trace := s.trace ++ [e] }
/-- Hands the two flags back to their holders (42_snapshot.md R108). -/
def State.handFlags (s : State) (irq nmi : Blob) : State := { s with flagOut := s.flagOut ++ [(irq, nmi)] }
/-- Answers the requester. -/
def State.respond (s : State) (r : Response) : State := { s with response := r }
/-- One more port event was served. -/
def State.tick (s : State) : State := { s with turn := s.turn + 1 }

/-- `ram[i] <- v` (00_scope.md R8). -/
def State.writeRam (s : State) (i : Nat) (v : Byte) : State := s.setRam (s.ram.write (ramBase s.params) i v)

/-- `ram <- fill(ramSize, RAM_FILL)`: nothing listed (00_scope.md R8; 41_host_control.md R90, R92). -/
def State.fillRam (s : State) : State := s.setRam []

/-- LOADROM's loop: the bytes from bus address `t` on, in ascending order, each stored if its target is in a ROM
window and dropped otherwise (41_host_control.md R96). -/
def loadRomFrom (base : Nat → Byte) : Memory → Nat → List Byte → Memory
  | m, _, [] => m
  | m, t, v :: vs =>
    match romTarget t with
    | some k => loadRomFrom base (m.write base k v) (t + 1) vs
    | none => loadRomFrom base m (t + 1) vs

/-! ### The collaborators and the holders of the flags -/

/-- What the free values may depend on (log 4). -/
def State.history (s : State) : Config.History := ⟨s.turn, s.trace, s.flagOut⟩

/-- The byte the Video collaborator would answer now (40_bus_access.md R81(h)). -/
def State.videoByte (s : State) (off : Nat) : Byte := Config.videoAnswer s.video s.history off

/-- The byte the I/O collaborator would answer now (40_bus_access.md R81(h)). -/
def State.ioByte (s : State) (off : Nat) : Byte := Config.ioAnswer s.io s.history off

/-- The record SAVE returns: exactly `ramSize` RAM bytes in ascending order, and what the holders of the other three
fields supply (42_snapshot.md R105). -/
def State.saveRecord (s : State) : SaveRecord where
  ramSize := s.ramSize.bytes
  ram := s.ram.toBytes (ramBase s.params) s.ramSize.bytes
  irq := Config.irqFlag s.history
  nmi := Config.nmiFlag s.history
  io := Config.ioSaved s.io s.history

end Sys2Proof.Machine
end

