-- ==== Sys2Proof/Machine/Flags.lean ====
section
/-! DEFINITION. Flags: the block has no flags, condition codes or status bits (10_state.md R13). The one Boolean is
the ghost flag of the RESIZE window (10_state.md R24). -/

namespace Sys2Proof.Machine

def State.setWindow (s : State) (b : Bool) : State := { s with window := b }

/-- RESET opens the window (10_state.md R24). -/
def State.openWindow (s : State) : State := s.setWindow true

/-- Every READ, every WRITE and every RESTORE closes it (10_state.md R24). -/
def State.closeWindow (s : State) : State := s.setWindow false

end Sys2Proof.Machine
end

