-- ==== Sys2Proof/Machine/AddressSelect.lean ====
section
/-! DEFINITION. AddressSelect: the fourteen region-select patterns (30_encoding.md R61 to R65), as what the address
decoder answers to an address presented alone. "`decode` is a pure function of `a` and `ramSize`; it reads no other
state and writes none" (20_memory.md R36): only the answer changes (log 2). -/

namespace Sys2Proof.Machine

/-- The answer to an address: what its row says where the row is in force; else the address belongs to another row,
and the answer is what the ranges of 20_memory.md R36 give (log 2). -/
def presentAddress (inForce : Bool) (row : Select) (a : Addr) (s : State) : Host.Outcome State Fault Refusal :=
  .next (s.respond (.selected (if inForce then row else select s.ramSize a)))

/-- 0x0000..0x1FFF, `a[15:13] = 000`, offset `a[12:0]`; in force for 8192 bytes (30_encoding.md R62). -/
def execSelRam8k (x : BitVec 13) (s : State) : Host.Outcome State Fault Refusal :=
  presentAddress (s.ramSize == .k8) (.ram x.toNat) (0b000#3 ++ x) s

/-- 0x0000..0x3FFF, `a[15:14] = 00`, offset `a[13:0]`; in force for 16384 bytes (30_encoding.md R62). -/
def execSelRam16k (x : BitVec 14) (s : State) : Host.Outcome State Fault Refusal :=
  presentAddress (s.ramSize == .k16) (.ram x.toNat) (0b00#2 ++ x) s

/-- 0x0000..0x7FFF, `a[15] = 0`, offset `a[14:0]`; in force for 32768 bytes (30_encoding.md R62). -/
def execSelRam32k (x : BitVec 15) (s : State) : Host.Outcome State Fault Refusal :=
  presentAddress (s.ramSize == .k32) (.ram x.toNat) (0b0#1 ++ x) s

/-- 0xC000..0xDFFF, `a[15:13] = 110`, offset `a[12:0]` (30_encoding.md R63). -/
def execSelRomLowA (x : BitVec 13) (s : State) : Host.Outcome State Fault Refusal :=
  presentAddress true (.rom x.toNat) (0b110#3 ++ x) s

/-- 0xE000..0xE7FF, `a[15:11] = 11100`, offset `0x2000 + a[10:0]` (30_encoding.md R63). -/
def execSelRomLowB (x : BitVec 11) (s : State) : Host.Outcome State Fault Refusal :=
  presentAddress true (.rom (0xE000 - Config.romLowBase + x.toNat)) (0b11100#5 ++ x) s

/-- 0xF000..0xFFFF, `a[15:12] = 1111`, offset `0x2800 + a[11:0]` (30_encoding.md R63). -/
def execSelRomHigh (x : BitVec 12) (s : State) : Host.Outcome State Fault Refusal :=
  presentAddress true (.rom (Config.romLowSize + x.toNat)) (0b1111#4 ++ x) s

/-- 0x8000..0x83FF, `a[15:10] = 100000`, offset `a[9:0]` (30_encoding.md R64). -/
def execSelVideo (x : BitVec 10) (s : State) : Host.Outcome State Fault Refusal :=
  presentAddress true (.video x.toNat) (0b100000#6 ++ x) s

/-- 0xE800..0xEFFF, `a[15:11] = 11101`, offset `a[10:0]` (30_encoding.md R64). -/
def execSelIo (x : BitVec 11) (s : State) : Host.Outcome State Fault Refusal :=
  presentAddress true (.io x.toNat) (0b11101#5 ++ x) s

/-- 0x2000..0x3FFF, `a[15:13] = 001`; in force for 8192 bytes (30_encoding.md R65). -/
def execSelNone2000 (x : BitVec 13) (s : State) : Host.Outcome State Fault Refusal :=
  presentAddress (s.ramSize == .k8) .none (0b001#3 ++ x) s

/-- 0x4000..0x7FFF, `a[15:14] = 01`; in force for 8192 and 16384 bytes (30_encoding.md R65). -/
def execSelNone4000 (x : BitVec 14) (s : State) : Host.Outcome State Fault Refusal :=
  presentAddress (s.ramSize != .k32) .none (0b01#2 ++ x) s

/-- 0x8400..0x87FF, `a[15:10] = 100001` (30_encoding.md R65). -/
def execSelNone8400 (x : BitVec 10) (s : State) : Host.Outcome State Fault Refusal :=
  presentAddress true .none (0b100001#6 ++ x) s

/-- 0x8800..0x8FFF, `a[15:11] = 10001` (30_encoding.md R65). -/
def execSelNone8800 (x : BitVec 11) (s : State) : Host.Outcome State Fault Refusal :=
  presentAddress true .none (0b10001#5 ++ x) s

/-- 0x9000..0x9FFF, `a[15:12] = 1001` (30_encoding.md R65). -/
def execSelNone9000 (x : BitVec 12) (s : State) : Host.Outcome State Fault Refusal :=
  presentAddress true .none (0b1001#4 ++ x) s

/-- 0xA000..0xBFFF, `a[15:13] = 101` (30_encoding.md R65). -/
def execSelNoneA000 (x : BitVec 13) (s : State) : Host.Outcome State Fault Refusal :=
  presentAddress true .none (0b101#3 ++ x) s

end Sys2Proof.Machine
end

