-- ==== Sys2Proof/Machine/BusAccess.lean ====
section
/-! DEFINITION. BusAccess: READ and WRITE (40_bus_access.md). -/

namespace Sys2Proof.Machine

/-- READ (40_bus_access.md R80). -/
def execRead (a : Addr) (s : State) : Host.Outcome State Fault Refusal :=
  .next (match select s.ramSize a with
    | .ram i => s.closeWindow.respond (.byte (s.ramAt i))
    | .rom k => s.closeWindow.respond (.byte (s.romAt k))
    | .video off => (s.closeWindow.emit (.video s.video (.read off))).respond (.byte (s.videoByte off))
    | .io off => (s.closeWindow.emit (.io s.io (.read off))).respond (.byte (s.ioByte off))
    | .none => s.closeWindow.respond (.byte s.params.unmappedRead))

/-- WRITE (40_bus_access.md R82). -/
def execWrite (a : Addr) (v : Byte) (s : State) : Host.Outcome State Fault Refusal :=
  .next ((match select s.ramSize a with
    | .ram i => s.closeWindow.writeRam i v
    | .rom _ => s.closeWindow
    | .video off => s.closeWindow.emit (.video s.video (.write off v))
    | .io off => s.closeWindow.emit (.io s.io (.write off v))
    | .none => s.closeWindow).respond .none)

/-- The byte in a response, if it is one. -/
def Response.byte? : Response → Option Byte
  | .byte v => some v
  | .none => Option.none
  | .record _ => Option.none
  | .selected _ => Option.none

/-- The shorthand MemRead(a, 2): READ(a) and then READ((a + 1) mod 65536), low byte first; the word read and the state
after both (20_memory.md R46; log 23). Not an operation of the block. -/
def memRead2 (a : Addr) (s : State) : Option (BitVec 16 × State) :=
  match execRead a s with
  | .next s₁ =>
    match execRead (a + 1#16) s₁ with
    | .next s₂ =>
      match s₁.response.byte?, s₂.response.byte? with
      | some lo, some hi => some (hi ++ lo, s₂)
      | _, _ => none
    | .fault _ => none
    | .refused _ => none
  | .fault _ => none
  | .refused _ => none

/-- The shorthand MemWrite(a, 2, w): WRITE(a, w[7:0]) and then WRITE((a + 1) mod 65536, w[15:8]) (20_memory.md R46). -/
def memWrite2 (a : Addr) (w : BitVec 16) (s : State) : Host.Outcome State Fault Refusal :=
  match execWrite a (w.extractLsb' 0 8) s with
  | .next s₁ => execWrite (a + 1#16) (w.extractLsb' 8 8) s₁
  | .fault f => .fault f
  | .refused r => .refused r

end Sys2Proof.Machine
end

