-- ==== Sys2Proof/Machine/HostControl.lean ====
section
/-! DEFINITION. HostControl: RESET, RESIZE, LOADROM (41_host_control.md) and the reserved operation code. -/

namespace Sys2Proof.Machine

/-- RESET (41_host_control.md R90). -/
def execReset (s : State) : Host.Outcome State Fault Refusal :=
  .next ((((s.fillRam.emit (.io s.io .reset)).emit (.video s.video .reset)).openWindow).respond .none)

/-- RESIZE (41_host_control.md R92 to R94). -/
def execResize (n : BitVec 16) (s : State) : Host.Outcome State Fault Refusal :=
  match RamSize.ofBytes? n.toNat with
  | none => .refused .illegalRamSize
  | some rs =>
    if s.window then .next ((s.setRamSize rs).fillRam.respond .none) else .refused .resizeOutsideWindow

/-- LOADROM (41_host_control.md R96). -/
def execLoadRom (b : Addr) (bytes : List Byte) (s : State) : Host.Outcome State Fault Refusal :=
  .next ((s.setRom (loadRomFrom (romBase s.params) s.rom b.toNat bytes)).respond .none)

/-- A word with `op` = 111: "The block has no behaviour for them: a model refuses them" (30_encoding.md R68). -/
def execReservedOp7 (_x : BitVec 29) (_s : State) : Host.Outcome State Fault Refusal :=
  .refused .reservedEncoding

end Sys2Proof.Machine
end

