-- ==== Sys2Proof/Machine/Snapshot.lean ====
section
/-! DEFINITION. Snapshot: SAVE and RESTORE (42_snapshot.md). -/

namespace Sys2Proof.Machine

/-- SAVE (42_snapshot.md R105). The request `IO.saveState()` is a message of the I/O port (log 6). -/
def execSave (s : State) : Host.Outcome State Fault Refusal :=
  .next ((s.emit (.io s.io .saveState)).respond (.record s.saveRecord))

/-- The block with a well-formed record in it (42_snapshot.md R108). -/
def State.restored (s : State) (rs : RamSize) (r : SaveRecord) : State :=
  ((((((s.setRamSize rs).setRam (Memory.ofBytesFrom (ramBase s.params) 0 r.ram)).handFlags r.irq r.nmi).emit
    (.io s.io (.restoreState r.io))).closeWindow).respond .none)

/-- RESTORE (42_snapshot.md R108, R109). -/
def execRestore (r : RecordOperand) (s : State) : Host.Outcome State Fault Refusal :=
  match r.record? Config.hexSpelling with
  | none => .refused .malformedRecord
  | some rec =>
    match rec.size? with
    | none => .refused .malformedRecord
    | some rs => .next (s.restored rs rec)

end Sys2Proof.Machine
end

