-- ==== Sys2Proof/Machine/Dispatch.lean ====
section
/-! DEFINITION. Dispatch: one arm per instruction. -/

namespace Sys2Proof.Machine

def exec (i : Instr) (s : State) : Host.Outcome State Fault Refusal :=
  match i with
  | .read a => Sys2Proof.Machine.execRead a s
  | .write a v => Sys2Proof.Machine.execWrite a v s
  | .reset => Sys2Proof.Machine.execReset s
  | .resize n => Sys2Proof.Machine.execResize n s
  | .loadRom b bytes => Sys2Proof.Machine.execLoadRom b bytes s
  | .save => Sys2Proof.Machine.execSave s
  | .restore r => Sys2Proof.Machine.execRestore r s
  | .reservedOp7 x => Sys2Proof.Machine.execReservedOp7 x s
  | .selRam8k x => Sys2Proof.Machine.execSelRam8k x s
  | .selRam16k x => Sys2Proof.Machine.execSelRam16k x s
  | .selRam32k x => Sys2Proof.Machine.execSelRam32k x s
  | .selRomLowA x => Sys2Proof.Machine.execSelRomLowA x s
  | .selRomLowB x => Sys2Proof.Machine.execSelRomLowB x s
  | .selRomHigh x => Sys2Proof.Machine.execSelRomHigh x s
  | .selVideo x => Sys2Proof.Machine.execSelVideo x s
  | .selIo x => Sys2Proof.Machine.execSelIo x s
  | .selNone2000 x => Sys2Proof.Machine.execSelNone2000 x s
  | .selNone4000 x => Sys2Proof.Machine.execSelNone4000 x s
  | .selNone8400 x => Sys2Proof.Machine.execSelNone8400 x s
  | .selNone8800 x => Sys2Proof.Machine.execSelNone8800 x s
  | .selNone9000 x => Sys2Proof.Machine.execSelNone9000 x s
  | .selNoneA000 x => Sys2Proof.Machine.execSelNoneA000 x s

end Sys2Proof.Machine
end

