-- ==== Sys2Proof/Machine/Step.lean ====
section
/-! DEFINITION. Step: one thing at the ports is served, whole, before the next (20_memory.md R49, R51). -/

namespace Sys2Proof.Machine

/-- A word the decoder rejects (30_encoding.md R68). -/
def DecodeError.refusal : DecodeError → Refusal
  | .reservedEncoding => .reservedEncoding
  | .sideBandMismatch => .sideBandMismatch

/-- One request: decoded for the RAM size in force, and performed. -/
def serveRequest (r : Request) (s : State) : Host.Outcome State Fault Refusal :=
  match decode s.ramSize r with
  | .ok i => exec i s
  | .error e => .refused (DecodeError.refusal e)

/-- One port event. After teardown none has a meaning (70_reset_and_hazards.md R133); two operations at once have
none either (R139). -/
def serve (e : PortEvent) (s : State) : Host.Outcome State Fault Refusal :=
  if s.live then
    match e with
    | .request r => serveRequest r s
    | .overlap _ _ => .refused .overlappingOperations
    | .teardown => .next ((s.setLive false).respond .none)
  else .refused .afterTeardown

/-- The state in which the first pending port event is served: the event is taken from the queue, and counted. -/
def State.taking (s : State) (rest : List PortEvent) : State := (s.setPending rest).tick

/-- One step: the next port event is served. With none pending nothing happens to the block (log 3). -/
def step (s : State) : Host.Outcome State Fault Refusal :=
  match s.pending with
  | [] => .next s.tick
  | e :: rest => serve e (s.taking rest)

/-- The state with a bare table word as the next request of a live block. Beside an operation word stands the
operand of `tableSide` (log 15). An address word is read for 8192 bytes, so the RAM size is set to that and RAM cut to
it (log 16). -/
def State.withFetchWord (s : State) (nbits w : Nat) : State :=
  if nbits = 32 then
    { s with
      live := true
      pending := .request (.opw (BitVec.ofNat 32 w) (tableSide (BitVec.ofNat 32 w))) :: s.pending }
  else if nbits = 16 then
    { s with
      live := true
      ramSize := .k8
      ram := s.ram.filter (fun c => c.1 < RamSize.k8.bytes)
      pending := .request (.addr16 (BitVec.ofNat 16 w)) :: s.pending }
  else s

end Sys2Proof.Machine
end

