-- ==== Sys2Proof/Safety.lean ====
section
/-! DEFINITION. Safety: which requests the spec gives a meaning to, the invariant of the block, runs of operations, and
the terms the claims use. -/

namespace Sys2Proof.Machine

/-- The operation may only be issued in the RESIZE window (41_host_control.md R94). -/
def needsWindow : Instr → Bool
  | .read _ => false
  | .write _ _ => false
  | .reset => false
  | .resize _ => true
  | .loadRom _ _ => false
  | .save => false
  | .restore _ => false
  | .reservedOp7 _ => false
  | .selRam8k _ => false
  | .selRam16k _ => false
  | .selRam32k _ => false
  | .selRomLowA _ => false
  | .selRomLowB _ => false
  | .selRomHigh _ => false
  | .selVideo _ => false
  | .selIo _ => false
  | .selNone2000 _ => false
  | .selNone4000 _ => false
  | .selNone8400 _ => false
  | .selNone8800 _ => false
  | .selNone9000 _ => false
  | .selNoneA000 _ => false

/-- The spec gives the request a meaning in this state (60_exceptions.md R115, R116): its operands are legal, and a
RESIZE is issued inside the window. Everything else is refused. -/
def hasMeaning (i : Instr) (s : State) : Bool := i.wf && (!needsWindow i || s.window)

/-- A step is safe when it is not refused: the spec gives what was requested a meaning. -/
def SafeStep (s : State) : Prop := ∀ r, step s ≠ .refused r

/-- The offset of an event lies in its window (10_state.md R22, R23). -/
def eventInWindow : Event → Bool
  | .video _ (.read off) => decide (off < Config.videoSize)
  | .video _ (.write off _) => decide (off < Config.videoSize)
  | .video _ .reset => true
  | .io _ (.read off) => decide (off < Config.ioSize)
  | .io _ (.write off _) => decide (off < Config.ioSize)
  | .io _ .reset => true
  | .io _ .saveState => true
  | .io _ (.restoreState _) => true

/-- The invariant of the block. Both buffers are in canonical form within their sizes (10_state.md R10, the type
invariant `length(ram) = ramSize`; R19); while the window is open, every RAM byte is `RAM_FILL` (R25); and every event
sent carries an offset of its window (R22, R23). -/
structure State.Inv (s : State) : Prop where
  ram_wf : Memory.wf (ramBase s.params) s.ramSize.bytes s.ram = true
  rom_wf : Memory.wf (romBase s.params) Config.romSize s.rom = true
  window_filled : s.window = true → s.ram = []
  trace_in_window : ∀ e ∈ s.trace, eventInWindow e = true

/-- Operations one after another, each complete before the next begins (20_memory.md R51). -/
def execAll : List Instr → State → Host.Outcome State Fault Refusal
  | [], s => .next s
  | i :: is, s =>
    match exec i s with
    | .next t => execAll is t
    | .fault f => .fault f
    | .refused r => .refused r

/-- The operation cannot change the RAM byte at `a`: it is no WRITE to `a`, and no RESET, RESIZE or RESTORE
(20_memory.md R51(a)). -/
def leavesRamByte (a : Addr) : Instr → Bool
  | .read _ => true
  | .write b _ => decide (b ≠ a)
  | .reset => false
  | .resize _ => false
  | .loadRom _ _ => true
  | .save => true
  | .restore _ => false
  | .reservedOp7 _ => true
  | .selRam8k _ => true
  | .selRam16k _ => true
  | .selRam32k _ => true
  | .selRomLowA _ => true
  | .selRomLowB _ => true
  | .selRomHigh _ => true
  | .selVideo _ => true
  | .selIo _ => true
  | .selNone2000 _ => true
  | .selNone4000 _ => true
  | .selNone8400 _ => true
  | .selNone8800 _ => true
  | .selNone9000 _ => true
  | .selNoneA000 _ => true

/-- The operation is a LOADROM, the only one that may change a ROM byte (10_state.md R20). -/
def isLoadRom : Instr → Bool
  | .read _ => false
  | .write _ _ => false
  | .reset => false
  | .resize _ => false
  | .loadRom _ _ => true
  | .save => false
  | .restore _ => false
  | .reservedOp7 _ => false
  | .selRam8k _ => false
  | .selRam16k _ => false
  | .selRam32k _ => false
  | .selRomLowA _ => false
  | .selRomLowB _ => false
  | .selRomHigh _ => false
  | .selVideo _ => false
  | .selIo _ => false
  | .selNone2000 _ => false
  | .selNone4000 _ => false
  | .selNone8400 _ => false
  | .selNone8800 _ => false
  | .selNone9000 _ => false
  | .selNoneA000 _ => false

/-- The operation is a READ or a WRITE. -/
def isAccess : Instr → Bool
  | .read _ => true
  | .write _ _ => true
  | .reset => false
  | .resize _ => false
  | .loadRom _ _ => false
  | .save => false
  | .restore _ => false
  | .reservedOp7 _ => false
  | .selRam8k _ => false
  | .selRam16k _ => false
  | .selRam32k _ => false
  | .selRomLowA _ => false
  | .selRomLowB _ => false
  | .selRomHigh _ => false
  | .selVideo _ => false
  | .selIo _ => false
  | .selNone2000 _ => false
  | .selNone4000 _ => false
  | .selNone8400 _ => false
  | .selNone8800 _ => false
  | .selNone9000 _ => false
  | .selNoneA000 _ => false

/-- The event a READ or a WRITE sends to a collaborator, if its address lies in a collaborator's window
(20_memory.md R37, R38; 40_bus_access.md R80, R82). -/
def accessEvent (s : State) : Instr → Option Event
  | .read a =>
    if Config.videoBase ≤ a.toNat ∧ a.toNat ≤ Config.videoLast then some (.video s.video (.read (a.toNat - Config.videoBase)))
    else if Config.ioBase ≤ a.toNat ∧ a.toNat ≤ Config.ioLast then some (.io s.io (.read (a.toNat - Config.ioBase)))
    else none
  | .write a v =>
    if Config.videoBase ≤ a.toNat ∧ a.toNat ≤ Config.videoLast then some (.video s.video (.write (a.toNat - Config.videoBase) v))
    else if Config.ioBase ≤ a.toNat ∧ a.toNat ≤ Config.ioLast then some (.io s.io (.write (a.toNat - Config.ioBase) v))
    else none
  | .reset => none
  | .resize _ => none
  | .loadRom _ _ => none
  | .save => none
  | .restore _ => none
  | .reservedOp7 _ => none
  | .selRam8k _ => none
  | .selRam16k _ => none
  | .selRam32k _ => none
  | .selRomLowA _ => none
  | .selRomLowB _ => none
  | .selRomHigh _ => none
  | .selVideo _ => none
  | .selIo _ => none
  | .selNone2000 _ => none
  | .selNone4000 _ => none
  | .selNone8400 _ => none
  | .selNone8800 _ => none
  | .selNone9000 _ => none
  | .selNoneA000 _ => none

/-- The bus address at which a byte of the ROM buffer is seen (20_memory.md R41). -/
def romAddress (k : Nat) : Nat :=
  if k < Config.romLowSize then Config.romLowBase + k else Config.romHighBase + (k - Config.romLowSize)

/-- An address no region serves (20_memory.md R39). -/
def unmapped (rs : RamSize) (a : Addr) : Prop :=
  Config.ramBase + rs.bytes ≤ a.toNat ∧ a.toNat < Config.videoBase ∨
    Config.videoLast < a.toNat ∧ a.toNat < Config.romLowBase

/-- A word that is no operation (30_encoding.md R68): `op` = 111, or a must-be-zero field that is not zero. -/
def reservedWord (w : BitVec 32) : Prop :=
  opField w = 7#3 ∨ rsvField w ≠ 0#5 ∨ (opField w ≠ 1#3 ∧ data8Field w ≠ 0#8) ∨
    ((opField w = 2#3 ∨ opField w = 5#3 ∨ opField w = 6#3) ∧ arg16Field w ≠ 0#16)

/-- The five tests of the address decoder, each with what it answers, in the stated order of precedence (20_memory.md
R36): RAM, ROM-low, ROM-high, Video, I/O. -/
def rangeTests (rs : RamSize) (a : Addr) : List (Bool × Select) :=
  let n := a.toNat
  [(decide (Config.ramBase ≤ n ∧ n < Config.ramBase + rs.bytes), .ram (n - Config.ramBase)),
    (decide (Config.romLowBase ≤ n ∧ n ≤ Config.romLowLast), .rom (n - Config.romLowBase)),
    (decide (Config.romHighBase ≤ n ∧ n ≤ Config.romHighLast), .rom (n - Config.romHighBase + Config.romLowSize)),
    (decide (Config.videoBase ≤ n ∧ n ≤ Config.videoLast), .video (n - Config.videoBase)),
    (decide (Config.ioBase ≤ n ∧ n ≤ Config.ioLast), .io (n - Config.ioBase))]

/-- What the first test that holds answers; no region where none holds. -/
def firstMatch : List (Bool × Select) → Select
  | [] => .none
  | (b, r) :: ts => if b then r else firstMatch ts

end Sys2Proof.Machine
end

