-- ==== Sys2Proof/Certificates/Slice0/Obligations.lean ====
section
/-! DEFINITION. Obligations: the statements for the provers. A statement about every state is a statement about every
value of the open parameters, which a state carries (log 1). Where a clause rests on a choice of the spec's own (its
decisions D<n>) or of the model's (a log entry), the docstring names it. -/

open Sys2Proof Sys2Proof.Machine

/-! ### Encoding -/

/-- 30_encoding.md R61 to R67 (the operation word is the spec's own, D17). For every instruction, with every operand
and side-band operand, and every RAM size for which its row is in force: decoding what the encoder gives answers the
instruction. -/
def Obligations.DecodeOfEncodeIsIdentity : Prop :=
  ∀ (rs : RamSize) (i : Instr), i.activeAt rs = true → decode rs (encode i) = .ok i

/-- 30_encoding.md R61 to R68, R74 (the operation word is D17, log 20). A request, an operation word or an address alone,
has at most one reading: what decodes to an instruction is what the encoder gives for it, so no bit and no side-band
operand is dropped; and the row read is in force (R61 to R65). -/
def Obligations.EncodeOfDecodeIsIdentity : Prop :=
  ∀ (rs : RamSize) (r : Request) (i : Instr), decode rs r = .ok i → encode i = r ∧ i.activeAt rs = true

/-- 30_encoding.md R61 ("they are a partition of the 65536 addresses for each `ramSize`"; derived there). Every address
fits exactly one row in force. -/
def Obligations.EveryAddressFitsExactlyOneRow : Prop :=
  ∀ (rs : RamSize) (a : BitVec 16), ∃ i : Instr, i.activeAt rs = true ∧ encode i = .addr16 a ∧
    ∀ j : Instr, j.activeAt rs = true → encode j = .addr16 a → j = i

/-- Words of 95_test_vectors.md (V-OPW, V-DEC), one or more of every family (the operation word is D17, log 20). V-OPW
lists 0xE0000000 among the refused words: that it decodes to the reserved row of the opcode table, which is then refused
when performed (O6), is the choice of log 20. -/
def Obligations.SampleWordsDecode : Prop :=
  decode .k8 (.opw 0x00040100#32 .none) = .ok (.read 0x0401#16) ∧
  decode .k8 (.opw 0x2004010B#32 .none) = .ok (.write 0x0401#16 0x0B#8) ∧
  decode .k8 (.opw 0x40000000#32 .none) = .ok .reset ∧
  decode .k8 (.opw 0x60400000#32 .none) = .ok (.resize 0x4000#16) ∧
  decode .k8 (.opw 0x80F00000#32 (.bytes [0xA9#8, 0x01#8])) = .ok (.loadRom 0xF000#16 [0xA9#8, 0x01#8]) ∧
  decode .k8 (.opw 0xA0000000#32 .none) = .ok .save ∧
  decode .k8 (.opw 0xC0000000#32 (.record (.text []))) = .ok (.restore (.text [])) ∧
  decode .k8 (.opw 0xE0000000#32 .none) = .ok (.reservedOp7 0#29) ∧
  decode .k16 (.addr16 0x3FFF#16) = .ok (.selRam16k 0x3FFF#14) ∧
  decode .k8 (.addr16 0xE7FF#16) = .ok (.selRomLowB 0x7FF#11) ∧
  decode .k8 (.addr16 0xE84C#16) = .ok (.selIo 0x04C#11) ∧
  decode .k8 (.addr16 0xBFFF#16) = .ok (.selNoneA000 0x1FFF#13) ∧
  decode .k8 (.opw 0x00040101#32 .none) = .error .reservedEncoding ∧
  decode .k8 (.opw 0x01040100#32 .none) = .error .reservedEncoding

/-- 30_encoding.md R68 (D17). A live block refuses a reserved operation word, whatever stands beside it. -/
def Obligations.ReservedWordsAreRefused : Prop :=
  ∀ (s : State) (w : BitVec 32) (side : SideBand) (rest : List PortEvent), s.live = true →
    s.pending = .request (.opw w side) :: rest → reservedWord w → step s = .refused .reservedEncoding

/-- 30_encoding.md R68 (D17): `op` = 111 has no meaning. -/
def Obligations.ReservedCodeIsRefused : Prop :=
  ∀ (x : BitVec 29) (s : State), exec (.reservedOp7 x) s = .refused .reservedEncoding

/-! ### The address decoder -/

/-- 20_memory.md R36, R40 (derived there), 60_exceptions.md R121. The decoder answers each region, and the offset of it,
for exactly the addresses of that region's range at the RAM size in force (the offsets are D8 and D9, log 18); at most one
of its tests holds of an address; and made in any other order the tests give the same answer, so the order of precedence
decides nothing. -/
def Obligations.NoAddressFitsTwoRegions : Prop :=
  ∀ (rs : RamSize) (a : Addr),
    (∀ i, select rs a = .ram i ↔ i = a.toNat ∧ a.toNat < match rs with
      | .k8 => 0x2000
      | .k16 => 0x4000
      | .k32 => 0x8000) ∧
    (∀ k, select rs a = .rom k ↔ (0xC000 ≤ a.toNat ∧ a.toNat ≤ 0xE7FF ∧ k = a.toNat - 0xC000) ∨
      (0xF000 ≤ a.toNat ∧ k = a.toNat - 0xC800)) ∧
    (∀ off, select rs a = .video off ↔ 0x8000 ≤ a.toNat ∧ a.toNat ≤ 0x83FF ∧ off = a.toNat - 0x8000) ∧
    (∀ off, select rs a = .io off ↔ 0xE800 ≤ a.toNat ∧ a.toNat ≤ 0xEFFF ∧ off = a.toNat - 0xE800) ∧
    (rangeTests rs a).countP (fun t => t.1) ≤ 1 ∧
    ∀ tests, tests.Perm (rangeTests rs a) → firstMatch tests = select rs a

/-- 20_memory.md R40 (derived there): "Unmapped addresses number 39936, 31744 and 15360 for the three sizes". -/
def Obligations.UnmappedAddressesAreCounted : Prop :=
  ∀ rs : RamSize, ((List.range 65536).countP fun n => select rs (BitVec.ofNat 16 n) == .none) =
    match rs with
    | .k8 => 39936
    | .k16 => 31744
    | .k32 => 15360

/-- 10_state.md R19 and 20_memory.md R41 (the packed layout is D8): every byte of the ROM buffer is seen at exactly one
address, and only there. -/
def Obligations.EachRomByteHasOneAddress : Prop :=
  ∀ (rs : RamSize) (k : Nat), k < 14336 → ∃ a : Addr, select rs a = .rom k ∧
    ∀ b : Addr, select rs b = .rom k → b = a

/-- 20_memory.md R33: the offset answered lies in the index space of its store. The ROM index space is that of the packed
layout (D8), and those of Video and I/O are the spec's own convention (D9; log 18 for all three). -/
def Obligations.OffsetsLieInTheirStores : Prop :=
  ∀ (rs : RamSize) (a : Addr),
    (∀ i, select rs a = .ram i → i < rs.bytes) ∧ (∀ k, select rs a = .rom k → k ≤ 0x37FF) ∧
    (∀ off, select rs a = .video off → off ≤ 0x3FF) ∧ (∀ off, select rs a = .io off → off ≤ 0x7FF)

/-- 30_encoding.md R62 (derived there; that an address is presented alone is log 2). Each RAM row answers RAM and its
free bits at the RAM size it is in force for; nothing else changes. -/
def Obligations.RamRowsSelectRam : Prop :=
  (∀ (x : BitVec 13) (s : State), s.ramSize = .k8 →
    exec (.selRam8k x) s = .next { s with response := .selected (.ram x.toNat) }) ∧
  (∀ (x : BitVec 14) (s : State), s.ramSize = .k16 →
    exec (.selRam16k x) s = .next { s with response := .selected (.ram x.toNat) }) ∧
  (∀ (x : BitVec 15) (s : State), s.ramSize = .k32 →
    exec (.selRam32k x) s = .next { s with response := .selected (.ram x.toNat) })

/-- 30_encoding.md R63 (derived there; log 2). The ROM rows answer the offset of the packed buffer. -/
def Obligations.RomRowsSelectRom : Prop :=
  (∀ (x : BitVec 13) (s : State),
    exec (.selRomLowA x) s = .next { s with response := .selected (.rom x.toNat) }) ∧
  (∀ (x : BitVec 11) (s : State),
    exec (.selRomLowB x) s = .next { s with response := .selected (.rom (0x2000 + x.toNat)) }) ∧
  (∀ (x : BitVec 12) (s : State),
    exec (.selRomHigh x) s = .next { s with response := .selected (.rom (0x2800 + x.toNat)) })

/-- 30_encoding.md R64 (derived there; log 2). -/
def Obligations.DeviceRowsSelectTheirWindow : Prop :=
  (∀ (x : BitVec 10) (s : State),
    exec (.selVideo x) s = .next { s with response := .selected (.video x.toNat) }) ∧
  (∀ (x : BitVec 11) (s : State),
    exec (.selIo x) s = .next { s with response := .selected (.io x.toNat) })

/-- 30_encoding.md R65 (derived there; log 2). -/
def Obligations.UnmappedRowsSelectNothing : Prop :=
  (∀ (x : BitVec 13) (s : State), s.ramSize = .k8 →
    exec (.selNone2000 x) s = .next { s with response := .selected .none }) ∧
  (∀ (x : BitVec 14) (s : State), s.ramSize = .k8 ∨ s.ramSize = .k16 →
    exec (.selNone4000 x) s = .next { s with response := .selected .none }) ∧
  (∀ (x : BitVec 10) (s : State),
    exec (.selNone8400 x) s = .next { s with response := .selected .none }) ∧
  (∀ (x : BitVec 11) (s : State),
    exec (.selNone8800 x) s = .next { s with response := .selected .none }) ∧
  (∀ (x : BitVec 12) (s : State),
    exec (.selNone9000 x) s = .next { s with response := .selected .none }) ∧
  (∀ (x : BitVec 13) (s : State),
    exec (.selNoneA000 x) s = .next { s with response := .selected .none })

/-- 30_encoding.md R61 against 20_memory.md R36: the bit patterns and the ranges are the same decoder. Whatever row an
address is read as, in force or not, the answer is that of the ranges at the RAM size in force (log 2). -/
def Obligations.PatternsAgreeWithRanges : Prop :=
  ∀ (i : Instr) (a : BitVec 16) (s : State), encode i = .addr16 a →
    exec i s = .next { s with response := .selected (select s.ramSize a) }

/-! ### READ and WRITE -/

/-- 40_bus_access.md R80, R81, by the ranges of 20_memory.md R40 (that reads in the Video and I/O windows are forwarded
is D10, log 19; the offsets are D8 and D9, log 18; the flag `window` is D14, log 10). READ always completes; by the range
its address lies in, at the RAM size in force, it answers a RAM byte, a ROM byte, what a collaborator supplies (and sends
one event), or the sentinel; and it changes nothing else. -/
def Obligations.ReadAnswersByAddress : Prop :=
  ∀ (a : Addr) (s : State), ∃ t, exec (.read a) s = .next t ∧
    t = { s with window := false, response := t.response, trace := t.trace } ∧
    (a.toNat < s.ramSize.bytes → t.response = .byte (s.ramAt a.toNat) ∧ t.trace = s.trace) ∧
    (0xC000 ≤ a.toNat ∧ a.toNat ≤ 0xE7FF →
      t.response = .byte (s.romAt (a.toNat - 0xC000)) ∧ t.trace = s.trace) ∧
    (0xF000 ≤ a.toNat → t.response = .byte (s.romAt (a.toNat - 0xC800)) ∧ t.trace = s.trace) ∧
    (0x8000 ≤ a.toNat ∧ a.toNat ≤ 0x83FF →
      t.response = .byte (s.videoByte (a.toNat - 0x8000)) ∧
      t.trace = s.trace ++ [.video s.video (.read (a.toNat - 0x8000))]) ∧
    (0xE800 ≤ a.toNat ∧ a.toNat ≤ 0xEFFF →
      t.response = .byte (s.ioByte (a.toNat - 0xE800)) ∧
      t.trace = s.trace ++ [.io s.io (.read (a.toNat - 0xE800))]) ∧
    (unmapped s.ramSize a → t.response = .byte s.params.unmappedRead ∧ t.trace = s.trace)

/-- 40_bus_access.md R82, whole. WRITE is the word with `op` = 001, always completes and returns nothing; it stores one
byte of RAM, or forwards to a collaborator, or drops, and it changes nothing else. -/
def Obligations.WriteActsByAddress : Prop :=
  ∀ (a : Addr) (v : Byte) (s : State), s.Inv →
    encode (.write a v) = .opw (opWord 0b001#3 a v) .none ∧
    ∃ t, exec (.write a v) s = .next t ∧
      t = { s with window := false, response := .none, ram := t.ram, trace := t.trace } ∧
      (a.toNat < s.ramSize.bytes → t.trace = s.trace ∧
        ∀ x, t.ramAt x = if x = a.toNat then v else s.ramAt x) ∧
      (s.ramSize.bytes ≤ a.toNat → t.ram = s.ram) ∧
      (0x8000 ≤ a.toNat ∧ a.toNat ≤ 0x83FF →
        t.trace = s.trace ++ [.video s.video (.write (a.toNat - 0x8000) v)]) ∧
      (0xE800 ≤ a.toNat ∧ a.toNat ≤ 0xEFFF →
        t.trace = s.trace ++ [.io s.io (.write (a.toNat - 0xE800) v)]) ∧
      (0xC000 ≤ a.toNat ∧ a.toNat ≤ 0xE7FF ∨ 0xF000 ≤ a.toNat ∨ unmapped s.ramSize a → t.trace = s.trace)

/-- 20_memory.md R35 (the packed offsets `k` and 10240 + `k` are D8, log 18; that READ and WRITE close the window is D14,
log 10). ROM-low is 10240 addresses from 0xC000, ROM-high 4096 addresses from 0xF000; a READ of
either shows the one ROM buffer, the second window continuing where the first ends; WRITE changes no byte of it. -/
def Obligations.RomIsSeenThroughTwoWindows : Prop :=
  ∀ (s : State) (a : Addr),
    (∀ k, k < 10240 → a.toNat = 0xC000 + k → select s.ramSize a = .rom k ∧
      exec (.read a) s = .next { s with window := false, response := .byte (s.romAt k) }) ∧
    (∀ k, k < 4096 → a.toNat = 0xF000 + k → select s.ramSize a = .rom (10240 + k) ∧
      exec (.read a) s = .next { s with window := false, response := .byte (s.romAt (10240 + k)) }) ∧
    (∀ k, select s.ramSize a = .rom k → 0xC000 ≤ a.toNat ∧ a.toNat ≤ 0xE7FF ∨ 0xF000 ≤ a.toNat) ∧
    (∀ v : Byte, (0xC000 ≤ a.toNat ∧ a.toNat ≤ 0xE7FF ∨ 0xF000 ≤ a.toNat) →
      exec (.write a v) s = .next { s with window := false, response := .none })

/-- 20_memory.md R39 (that READ and WRITE close the window is D14, log 10). The unmapped addresses are `ramSize`..0x7FFF and 0x8400..0xBFFF and no others; a WRITE to
one is dropped; and a READ of one answers the same sentinel after any operations, whatever was written. -/
def Obligations.UnmappedAddressesReadTheSentinel : Prop :=
  ∀ (s : State) (a : Addr),
    (select s.ramSize a = .none ↔ unmapped s.ramSize a) ∧
    (unmapped s.ramSize a → ∀ v : Byte, exec (.write a v) s = .next { s with window := false, response := .none }) ∧
    ∀ (is : List Instr) (t : State) (b : Addr), execAll is s = .next t → unmapped t.ramSize b →
      exec (.read b) t = .next { t with window := false, response := .byte s.params.unmappedRead }

/-- 20_memory.md R50: a READ that is not forwarded is idempotent; the second one changes nothing at all and answers the
same (the flag `window` is D14). -/
def Obligations.UnforwardedReadIsIdempotent : Prop :=
  ∀ (a : Addr) (s t : State), a.toNat < 0x8000 ∨ 0x8400 ≤ a.toNat → a.toNat < 0xE800 ∨ 0xF000 ≤ a.toNat →
    exec (.read a) s = .next t → exec (.read a) t = .next t

/-- 20_memory.md R46 (the order of the two bytes and the wrap are D23). In RAM, what MemWrite(a, 2, w) stores
MemRead(a, 2) reads back, low byte at the lower address. -/
def Obligations.WordWrittenIsReadBack : Prop :=
  ∀ (a : Addr) (w : BitVec 16) (s : State), s.Inv → a.toNat + 1 < s.ramSize.bytes →
    ∃ t, memWrite2 a w s = .next t ∧ t.ramAt a.toNat = w.extractLsb' 0 8 ∧
      t.ramAt (a.toNat + 1) = w.extractLsb' 8 8 ∧ ∃ u, memRead2 a t = some (w, u)

/-! ### RESET, RESIZE, LOADROM -/

/-- 41_host_control.md R90 (the order of the two events is D11, that ROM is left alone is D28, the flag is D14). RESET
completes in every state: RAM holds the fill byte, the size is kept, I/O and then Video are reset, the window opens, and
nothing else changes. -/
def Obligations.ResetRefillsRam : Prop :=
  ∀ s : State, ∃ t, exec .reset s = .next t ∧ (∀ i, t.ramAt i = s.params.ramFill) ∧
    t = { s with ram := t.ram, window := true, response := .none,
                 trace := s.trace ++ [.io s.io .reset, .video s.video .reset] }

/-- 41_host_control.md R91(a) (derived there): a second RESET leaves the block as the first did, but sends both events
again. -/
def Obligations.SecondResetOnlySendsEvents : Prop :=
  ∀ s t : State, exec .reset s = .next t →
    exec .reset t = .next { t with trace := t.trace ++ [.io s.io .reset, .video s.video .reset] }

/-- 41_host_control.md R92 (the fill and what is left alone are D12, the window is D14). Inside the window RESIZE to
each legal size completes: the size is the new one, every RAM byte is the fill byte, and nothing else changes. -/
def Obligations.ResizeReinitializesRam : Prop :=
  ∀ (rs : RamSize) (n : BitVec 16) (s : State), n.toNat = rs.bytes → s.window = true →
    ∃ t, exec (.resize n) s = .next t ∧ (∀ i, t.ramAt i = s.params.ramFill) ∧
      t = { s with ramSize := rs, ram := t.ram, response := .none }

/-- 41_host_control.md R93, R94 (D13, D14). RESIZE to any other number is refused, and so is RESIZE to a legal size
after the window closed. -/
def Obligations.ResizeIsRefusedWithoutMeaning : Prop :=
  ∀ (n : BitVec 16) (s : State),
    (n.toNat ≠ 8192 ∧ n.toNat ≠ 16384 ∧ n.toNat ≠ 32768 → exec (.resize n) s = .refused .illegalRamSize) ∧
    ((n.toNat = 8192 ∨ n.toNat = 16384 ∨ n.toNat = 32768) → s.window = false →
      exec (.resize n) s = .refused .resizeOutsideWindow)

/-- 41_host_control.md R95(b) and 10_state.md R25 (derived there): inside the window RESIZE to the size already held
changes nothing of the block. -/
def Obligations.ResizeToHeldSizeChangesNothing : Prop :=
  ∀ (n : BitVec 16) (s : State), s.Inv → s.window = true → n.toNat = s.ramSize.bytes →
    exec (.resize n) s = .next { s with response := .none }

/-- 41_host_control.md R96, R97 (the address-linear reading and the dropped bytes are D15). LOADROM completes for every
base address and payload. The ROM byte seen at a bus address is the payload byte for that address if the payload has
one, and unchanged otherwise; nothing else changes. -/
def Obligations.LoadRomStoresAddressLinearImage : Prop :=
  ∀ (b : Addr) (bytes : List Byte) (s : State), s.Inv →
    ∃ t, exec (.loadRom b bytes) s = .next t ∧ t = { s with rom := t.rom, response := .none } ∧
      ∀ k, k < 14336 → t.romAt k =
        if b.toNat ≤ romAddress k then bytes.getD (romAddress k - b.toNat) (s.romAt k) else s.romAt k

/-- 41_host_control.md R99 (derived there): the domain on which both readings of the source agree. A payload inside one
ROM window lands at consecutive offsets. -/
def Obligations.LoadRomInsideOneWindowIsConsecutive : Prop :=
  ∀ (b : Addr) (bytes : List Byte) (s : State) (off : Nat), s.Inv →
    (0xC000 ≤ b.toNat ∧ b.toNat + bytes.length ≤ 0xE800 ∧ off = b.toNat - 0xC000) ∨
      (0xF000 ≤ b.toNat ∧ b.toNat + bytes.length ≤ 0x10000 ∧ off = b.toNat - 0xC800) →
    ∃ t, exec (.loadRom b bytes) s = .next t ∧ ∀ i (h : i < bytes.length), t.romAt (off + i) = bytes[i]

/-! ### SAVE and RESTORE -/

/-- 42_snapshot.md R105 (the length and order of the RAM field are D19; the event of `IO.saveState()` is log 6; the
last three fields are what their holders supply now, free values, log 4). SAVE completes in every state and changes
nothing of the block. -/
def Obligations.SaveReturnsRamInOrder : Prop :=
  ∀ s : State, ∃ rec, exec .save s =
      .next { s with response := .record rec, trace := s.trace ++ [.io s.io .saveState] } ∧
    rec.ramSize = s.ramSize.bytes ∧ rec.ram.length = s.ramSize.bytes ∧
    (∀ i, i < s.ramSize.bytes → rec.ram[i]? = some (s.ramAt i)) ∧
    rec.irq = Config.irqFlag s.history ∧ rec.nmi = Config.nmiFlag s.history ∧ rec.io = Config.ioSaved s.io s.history

/-- 42_snapshot.md R108 (D20; the hand-over of the flags as an output is log 7). RESTORE of a well-formed record,
handed over as a tuple or as a text, completes: the size and every RAM byte are the record's, the flags go back to their
holders, `IO.restoreState` is sent and no Video event, the window closes, and nothing else changes. -/
def Obligations.RestoreReplacesSizeAndRam : Prop :=
  ∀ (r : RecordOperand) (rec : SaveRecord) (rs : RamSize) (s : State), r.record? Config.hexSpelling = some rec →
    rec.ramSize = rs.bytes → rec.ram.length = rec.ramSize →
    ∃ t, exec (.restore r) s = .next t ∧
      t = { s with ramSize := rs, ram := t.ram, window := false, response := .none,
                   flagOut := s.flagOut ++ [(rec.irq, rec.nmi)],
                   trace := s.trace ++ [.io s.io (.restoreState rec.io)] } ∧
      ∀ i (h : i < rec.ram.length), t.ramAt i = rec.ram[i]

/-- 42_snapshot.md R109 (D20). A record with an illegal size or a RAM field of another length is refused, whether it is
handed over as a tuple or as a text that reads as one; so is a text that is no record; with any spelling of numbers a text is none if it has not exactly five fields, or has a RAM
element that is no numeral in 0..255. -/
def Obligations.MalformedRecordIsRefused : Prop :=
  (∀ (r : RecordOperand) (rec : SaveRecord) (s : State), r.record? Config.hexSpelling = some rec →
    (rec.ramSize ≠ 8192 ∧ rec.ramSize ≠ 16384 ∧ rec.ramSize ≠ 32768) ∨ rec.ram.length ≠ rec.ramSize →
    exec (.restore r) s = .refused .malformedRecord) ∧
  (∀ (text : List Char) (s : State), SaveRecord.ofText? Config.hexSpelling text = none →
    exec (.restore (.text text)) s = .refused .malformedRecord) ∧
  (∀ (h : Config.HexSpelling) (text : List Char), text.count ';' ≠ 4 → SaveRecord.ofText? h text = none) ∧
  ∀ (h : Config.HexSpelling) (f₁ f₂ f₃ f₄ f₅ w : List Char), ';' ∉ f₁ → ';' ∉ f₂ → ';' ∉ f₃ → ';' ∉ f₄ → ';' ∉ f₅ →
    w ∈ splitAtSep ',' f₂ → (∀ k, h.read w = some k → 256 ≤ k) →
    SaveRecord.ofText? h (f₁ ++ ';' :: f₂ ++ ';' :: f₃ ++ ';' :: f₄ ++ ';' :: f₅) = none

/-- 42_snapshot.md R110(a) (derived there). What SAVE returns in a state of the block can be restored there, and that
leaves the size, RAM and ROM exactly as they were; a second SAVE returns the same size and RAM. -/
def Obligations.RestoreOfSaveIsIdentity : Prop :=
  ∀ (s t : State) (rec : SaveRecord), s.Inv → exec .save s = .next t → t.response = .record rec →
    ∃ u, exec (.restore (.tuple rec)) t = .next u ∧ u.ramSize = s.ramSize ∧ u.ram = s.ram ∧ u.rom = s.rom ∧
      ∃ v rec', exec .save u = .next v ∧ v.response = .record rec' ∧ rec'.ramSize = rec.ramSize ∧ rec'.ram = rec.ram

/-- 42_snapshot.md R110(b) (derived there). SAVE right after RESTORE of a well-formed record returns its size and RAM. -/
def Obligations.SaveOfRestoreReturnsRecord : Prop :=
  ∀ (s t : State) (r : RecordOperand) (rec : SaveRecord), r.record? Config.hexSpelling = some rec →
    exec (.restore r) s = .next t →
    ∃ u rec', exec .save t = .next u ∧ u.response = .record rec' ∧
      rec'.ramSize = rec.ramSize ∧ rec'.ram = rec.ram

/-- 42_snapshot.md R106, R107 (the text form: D19, log 17; that no numeral holds a separator is deduced, log 17). Whatever
the spelling of numbers is, the text of a record whose opaque fields hold no semicolon reads back as the record; so RESTORE
of that text is RESTORE of the record itself. -/
def Obligations.RecordTextRoundTrips : Prop :=
  ∀ rec : SaveRecord, rec.ram ≠ [] → ';' ∉ rec.irq → ';' ∉ rec.nmi → ';' ∉ rec.io →
    (∀ h : Config.HexSpelling, SaveRecord.ofText? h (rec.toText h) = some rec) ∧
    ∀ s : State, exec (.restore (.text (rec.toText Config.hexSpelling))) s = exec (.restore (.tuple rec)) s

/-! ### Who writes what -/

/-- 10_state.md R15: among the operations only RESIZE and RESTORE write `ramSize`. -/
def Obligations.OnlyResizeAndRestoreWriteRamSize : Prop :=
  ∀ (i : Instr) (s t : State), exec i s = .next t → t.ramSize ≠ s.ramSize →
    (∃ n, i = .resize n) ∨ ∃ r, i = .restore r

/-- 10_state.md R18, whole. For a RAM byte: READ returns it and WRITE stores into it; RESET and RESIZE replace every
byte by `RAM_FILL`, RESIZE at the new length; RESTORE replaces them by the record's; SAVE reads all of them; LOADROM
touches none. -/
def Obligations.RamIsAccessedAsListed : Prop :=
  ∀ s : State, s.Inv →
    (∀ a : Addr, a.toNat < s.ramSize.bytes →
      (∃ t, exec (.read a) s = .next t ∧ t.response = .byte (s.ramAt a.toNat)) ∧
      ∀ v : Byte, ∃ t, exec (.write a v) s = .next t ∧ t.ramAt a.toNat = v) ∧
    (∀ t, exec .reset s = .next t → t.ramSize = s.ramSize ∧ ∀ i, i < t.ramSize.bytes → t.ramAt i = s.params.ramFill) ∧
    (∀ n t, exec (.resize n) s = .next t →
      t.ramSize.bytes = n.toNat ∧ ∀ i, i < t.ramSize.bytes → t.ramAt i = s.params.ramFill) ∧
    (∀ r rec t, r.record? Config.hexSpelling = some rec → exec (.restore r) s = .next t →
      ∀ i, i < t.ramSize.bytes → rec.ram[i]? = some (t.ramAt i)) ∧
    (∃ t rec, exec .save s = .next t ∧ t.response = .record rec ∧
      rec.ram = (List.range s.ramSize.bytes).map s.ramAt) ∧
    ∀ b bytes, ∃ t, exec (.loadRom b bytes) s = .next t ∧ t.ram = s.ram

/-- 10_state.md R20: no operation but LOADROM changes ROM (for RESET and RESTORE: D28, D20). -/
def Obligations.OnlyLoadRomChangesRom : Prop :=
  ∀ (i : Instr) (s t : State), isLoadRom i = false → exec i s = .next t → t.rom = s.rom

/-- 10_state.md R20 (D28, D20): RESET, RESIZE, SAVE and RESTORE neither read nor write ROM. Whatever stands in it, they
are refused or not alike, and do the same to everything else. That fields 3 to 5 of the record SAVE returns are equal in
the two runs is the model's choice of log 4 (their holders' answers are a function of the history, which no ROM byte
enters), which that entry calls unsafe for a comparison of two runs. -/
def Obligations.HostOperationsDoNotDependOnRom : Prop :=
  ∀ (i : Instr) (s : State) (m : Memory),
    i = .reset ∨ i = .save ∨ (∃ n, i = .resize n) ∨ (∃ r, i = .restore r) →
    (∀ t, exec i s = .next t → exec i { s with rom := m } = .next { t with rom := m }) ∧
    ∀ r, exec i s = .refused r → exec i { s with rom := m } = .refused r

/-- 10_state.md R24 (D14), exactly: what each operation does to the flag of the RESIZE window. -/
def Obligations.WindowFollowsOperations : Prop :=
  ∀ (i : Instr) (s t : State), exec i s = .next t →
    (i = .reset → t.window = true) ∧
    (isAccess i = true ∨ (∃ r, i = .restore r) → t.window = false) ∧
    (i ≠ .reset → isAccess i = false → (∀ r, i ≠ .restore r) → t.window = s.window)

/-- 10_state.md R10, R22, R23 and 70_reset_and_hazards.md R130: a step never binds a reference anew and never changes an
open value. -/
def Obligations.ReferencesAndParametersAreFixed : Prop :=
  ∀ s t : State, step s = .next t → t.video = s.video ∧ t.io = s.io ∧ t.params = s.params

/-! ### Runs -/

/-- 20_memory.md R51(a): after a WRITE to a RAM address and any operations that are no WRITE to it and no RESET, RESIZE or
RESTORE, a READ of it answers the byte written. -/
def Obligations.RamReadAnswersLatestWrite : Prop :=
  ∀ (a : Addr) (v : Byte) (is : List Instr) (s s₁ t : State), s.Inv → a.toNat < s.ramSize.bytes →
    exec (.write a v) s = .next s₁ → (∀ i ∈ is, leavesRamByte a i = true) → execAll is s₁ = .next t →
    ∃ u, exec (.read a) t = .next u ∧ u.response = .byte v

/-- 20_memory.md R51(b): after any operations that are no LOADROM, a READ of a ROM address answers the byte that stood
there, whatever was written to that address (for RESET and RESTORE: D28, D20). -/
def Obligations.RomReadAnswersLatestLoad : Prop :=
  ∀ (a : Addr) (k : Nat) (is : List Instr) (s t : State), k < 14336 → a.toNat = romAddress k →
    (∀ i ∈ is, isLoadRom i = false) → execAll is s = .next t →
    ∃ u, exec (.read a) t = .next u ∧ u.response = .byte (s.romAt k)

/-- 20_memory.md R51(d): a run of READs and WRITEs completes, and it adds to the trace exactly one event for each of
them whose address lies in a collaborator's window, in the order of issue. -/
def Obligations.AccessEventsAppearInIssueOrder : Prop :=
  ∀ (is : List Instr) (s : State), (∀ i ∈ is, isAccess i = true) →
    ∃ t, execAll is s = .next t ∧ t.trace = s.trace ++ is.filterMap (accessEvent s)

/-- 70_reset_and_hazards.md R134 (derived there). The boot order is admitted: after power-on, any ROM images, RESET, an
optional RESIZE to a legal size and the first READ all complete, in that order, and the READ is the operation that
closes the window. -/
def Obligations.BootOrderCompletes : Prop :=
  ∀ (p : Config.Params) (v io : Ref) (images : List (Addr × List Byte)) (size : Option RamSize) (a : Addr),
    ∃ s t,
      execAll (images.map (fun im => .loadRom im.1 im.2) ++ [.reset] ++
        (size.map fun rs => Instr.resize (BitVec.ofNat 16 rs.bytes)).toList) (State.powerOn p v io) = .next s ∧
      s.window = true ∧ s.ramSize = size.getD p.ramSizeInit ∧ exec (.read a) s = .next t ∧ t.window = false

/-! ### The whole machine -/

/-- 60_exceptions.md R115, whole. There is no fault, so no operation raises one; and every request the spec gives a
meaning to completes and leaves the block in a state of the form of 10_state.md R10; RESET, RESIZE, LOADROM and RESTORE
return no status (SAVE returns its record). -/
def Obligations.EveryMeaningfulOperationCompletes : Prop :=
  (Fault → False) ∧
  ∀ (i : Instr) (s : State), hasMeaning i s = true →
    ∃ t, exec i s = .next t ∧ (s.Inv → t.Inv) ∧
      (i = .reset ∨ (∃ n, i = .resize n) ∨ (∃ b bytes, i = .loadRom b bytes) ∨ (∃ r, i = .restore r) →
        t.response = .none)

/-- 60_exceptions.md R116 (derived there): exactly the requests without a meaning are refused. -/
def Obligations.RefusedExactlyWithoutMeaning : Prop :=
  ∀ (i : Instr) (s : State), (∃ r, exec i s = .refused r) ↔ hasMeaning i s = false

/-- 10_state.md R10, R19, R22, R23, R25 (R25 is derived there): canonical buffers within their sizes, an open window
means RAM is all fill, and events keep to their windows. Every step keeps this, from every state that has it. -/
def Obligations.StepKeepsTheBlockInForm : Prop :=
  ∀ s t : State, s.Inv → step s = .next t → t.Inv

/-- 70_reset_and_hazards.md R130 (D7), 10_state.md R26. The block as created, for all open values and collaborators. -/
def Obligations.PowerOnGivesListedValues : Prop :=
  ∀ (p : Config.Params) (v io : Ref),
    (State.powerOn p v io).ramSize = p.ramSizeInit ∧
    (∀ i, (State.powerOn p v io).ramAt i = p.ramFill) ∧
    (∀ k (h : k < Config.romSize), (State.powerOn p v io).romAt k = p.romInit[k]) ∧
    (State.powerOn p v io).video = v ∧ (State.powerOn p v io).io = io ∧
    (State.powerOn p v io).window = true ∧ (State.powerOn p v io).trace = []

/-- The state after reset meets the invariant (10_state.md R26; that it is the state of power-on is log 1). -/
def Obligations.ResetStateIsInForm : Prop := State.reset.Inv

/-- Log 3: how a request comes to run. The next port event of a live block, if it is a request that decodes to an
instruction, is taken from the queue and counted, and the instruction is performed in the resulting state. -/
def Obligations.StepRunsDecodedInstruction : Prop :=
  ∀ (s : State) (r : Request) (rest : List PortEvent) (i : Instr), s.live = true →
    s.pending = .request r :: rest → decode s.ramSize r = .ok i →
    step s = exec i { s with pending := rest, turn := s.turn + 1 }

/-- 70_reset_and_hazards.md R133 (D25), R139 (D24), and log 3. Two operations at once are refused; teardown completes,
after which every port event is refused; with nothing pending the block is left alone. -/
def Obligations.PortEventsThatAreNoRequest : Prop :=
  ∀ s : State,
    (s.pending = [] → step s = .next { s with turn := s.turn + 1 }) ∧
    (∀ r₁ r₂ rest, s.live = true → s.pending = .overlap r₁ r₂ :: rest → step s = .refused .overlappingOperations) ∧
    (∀ rest, s.live = true → s.pending = .teardown :: rest →
      step s = .next { s with pending := rest, turn := s.turn + 1, live := false, response := .none }) ∧
    ∀ e rest, s.live = false → s.pending = e :: rest → step s = .refused .afterTeardown

/-- The model's own (log 22): two memories in canonical form that read alike are equal data. -/
def Obligations.CanonicalMemoriesReadingAlikeAreEqual : Prop :=
  ∀ (base : Nat → Byte) (bound : Nat) (m m' : Memory), m.wf base bound = true → m'.wf base bound = true →
    (∀ a, m.read base a = m'.read base a) → m = m'
end

