-- ==== Sys2Proof/Laws/Decode.lean ====
section
/-! SUPPORT. Laws of Decode: the length test, the legal sizes, and the fields of a word built by the encoder. -/

namespace Sys2Proof

/-- Enough fuel drops exactly `n` elements. -/
theorem dropExact_eq {α : Type} (f n : Nat) (xs : List α) (h : n ≤ f) :
    dropExact f n xs = if n ≤ xs.length then some (xs.drop n) else none := by
  induction f generalizing n xs with
  | zero => simp [dropExact, Nat.le_zero.1 h]
  | succ f ih =>
    simp only [dropExact]
    by_cases h0 : n = 0
    · simp [h0]
    by_cases h1 : n = 1
    · cases xs <;> simp [h1]
    rw [if_neg h0, if_neg h1, ih (n / 2) xs (by omega)]
    by_cases hl : n / 2 ≤ xs.length
    · simp only [if_pos hl, ih (n - n / 2) _ (by omega : n - n / 2 ≤ f), List.length_drop, List.drop_drop,
        show n / 2 + (n - n / 2) = n by omega, show n - n / 2 ≤ xs.length - n / 2 ↔ n ≤ xs.length by omega]
    · rw [if_neg hl, if_neg (by omega)]

/-- The length test says what its name says. -/
theorem hasLength_iff {α : Type} (n : Nat) (xs : List α) : hasLength n xs = true ↔ xs.length = n := by
  rw [hasLength, dropExact_eq n n xs le_rfl]
  by_cases h : n ≤ xs.length
  · simp only [if_pos h, List.isEmpty_iff, List.drop_eq_nil_iff]
    omega
  · simp only [if_neg h, Bool.false_eq_true, false_iff]
    omega

@[simp] theorem bytes_k8 : RamSize.k8.bytes = 8192 := rfl
@[simp] theorem bytes_k16 : RamSize.k16.bytes = 16384 := rfl
@[simp] theorem bytes_k32 : RamSize.k32.bytes = 32768 := rfl

/-- An address is below 65536, whatever name its width goes by. -/
theorem addr_toNat_lt (a : Addr) : a.toNat < 65536 := a.isLt

/-- A datum is below 256. -/
theorem byte_toNat_lt (v : Byte) : v.toNat < 256 := v.isLt

/-- The legal sizes and their numbers of bytes correspond. -/
theorem ofBytes?_eq_some {n : Nat} {rs : RamSize} : RamSize.ofBytes? n = some rs ↔ n = rs.bytes := by
  unfold RamSize.ofBytes?
  split_ifs <;> cases rs <;> simp_all [RamSize.bytes]

theorem ofBytes?_bytes (rs : RamSize) : RamSize.ofBytes? rs.bytes = some rs := ofBytes?_eq_some.2 rfl

/-- A record is well formed exactly when its size is legal and its RAM field has that many bytes (42_snapshot.md
R109). -/
theorem size?_eq_some {r : SaveRecord} {rs : RamSize} :
    r.size? = some rs ↔ r.ramSize = rs.bytes ∧ r.ram.length = rs.bytes := by
  unfold SaveRecord.size?
  constructor
  · intro h
    split at h
    · rename_i rs' e
      split_ifs at h with hl
      cases h
      exact ⟨ofBytes?_eq_some.1 e, (hasLength_iff _ _).1 hl⟩
    · cases h
  · rintro ⟨h1, h2⟩
    rw [h1, ofBytes?_bytes]
    exact if_pos ((hasLength_iff _ _).2 h2)

theorem bytes_pos (rs : RamSize) : 0 < rs.bytes := by cases rs <;> decide

/-- No RAM size is above `RAM_MAX`. -/
theorem bytes_le (rs : RamSize) : rs.bytes ≤ 0x8000 := by cases rs <;> decide

/-! ### The text form of the save record -/

/-- The spelling of numbers is injective (42_snapshot.md R107). -/
theorem spell_injective (h : Config.HexSpelling) : Function.Injective h.spell := fun m n e => by
  simpa [h.read_spell] using congrArg h.read e

/-- A text without separators is one piece. -/
theorem splitAtSep_of_not_mem {c : Char} {f : List Char} (hf : c ∉ f) : splitAtSep c f = [f] := by
  induction f with
  | nil => rfl
  | cons d f ih =>
    simp only [List.mem_cons, not_or] at hf
    simp [splitAtSep, Ne.symm hf.1, ih hf.2]

/-- The first separator ends the first piece. -/
theorem splitAtSep_append {c : Char} {f : List Char} (hf : c ∉ f) (t : List Char) :
    splitAtSep c (f ++ c :: t) = f :: splitAtSep c t := by
  induction f with
  | nil => simp [splitAtSep]
  | cons d f ih =>
    simp only [List.mem_cons, not_or] at hf
    simp [splitAtSep, Ne.symm hf.1, ih hf.2]

/-- Five fields without semicolons, joined by semicolons, split into those fields. -/
theorem splitAtSep_joinSep_five {f₁ f₂ f₃ f₄ f₅ : List Char} (h₁ : ';' ∉ f₁) (h₂ : ';' ∉ f₂) (h₃ : ';' ∉ f₃)
    (h₄ : ';' ∉ f₄) (h₅ : ';' ∉ f₅) :
    splitAtSep ';' (joinSep ';' [f₁, f₂, f₃, f₄, f₅]) = [f₁, f₂, f₃, f₄, f₅] := by
  simp only [joinSep, splitAtSep_append, splitAtSep_of_not_mem, h₁, h₂, h₃, h₄, h₅, not_false_eq_true]

section
variable (op : BitVec 3) (arg : BitVec 16) (data : BitVec 8)

/-- The bits of an operation word, field by field (30_encoding.md R66). -/
theorem getLsbD_opWord (i : Nat) : (opWord op arg data).getLsbD i =
    if i < 8 then data.getLsbD i else if i < 24 then arg.getLsbD (i - 8)
    else if i < 29 then false else op.getLsbD (i - 29) := by
  have e : (opWord op arg data).getLsbD i = (op ++ 0b00000#5 ++ arg ++ data).getLsbD i := rfl
  rw [e]
  simp only [BitVec.getLsbD_append]
  by_cases h : i < 8
  · simp [h]
  by_cases h2 : i < 24
  · simp [h, h2, show i - 8 < 16 by omega]
  by_cases h3 : i < 29
  · simp [h, h2, h3, show ¬i - 8 < 16 by omega, show i - 8 - 16 < 5 by omega]
  · simp [h, h2, h3, show ¬i - 8 < 16 by omega, show ¬i - 8 - 16 < 5 by omega,
      show i - 8 - 16 - 5 = i - 29 by omega]

@[simp] theorem opField_opWord : opField (opWord op arg data) = op := by
  apply BitVec.eq_of_getLsbD_eq
  intro i hi
  simp [opField, getLsbD_opWord, hi, show ¬29 + i < 8 by omega, show ¬29 + i < 24 by omega]

@[simp] theorem rsvField_opWord : rsvField (opWord op arg data) = 0#5 := by
  apply BitVec.eq_of_getLsbD_eq
  intro i hi
  simp [rsvField, getLsbD_opWord, hi, show ¬24 + i < 8 by omega, show ¬24 + i < 24 by omega,
    show 24 + i < 29 by omega]

@[simp] theorem arg16Field_opWord : arg16Field (opWord op arg data) = arg := by
  apply BitVec.eq_of_getLsbD_eq
  intro i hi
  simp [arg16Field, getLsbD_opWord, hi, show ¬8 + i < 8 by omega, show 8 + i < 24 by omega]

@[simp] theorem data8Field_opWord : data8Field (opWord op arg data) = data := by
  apply BitVec.eq_of_getLsbD_eq
  intro i hi
  simp [data8Field, getLsbD_opWord, hi]

end

end Sys2Proof
end

