-- ==== Sys2Proof/Laws/Memory.lean ====
section
/-! SUPPORT. Laws of Memory: reading after writing, and the canonical form. -/

namespace Sys2Proof.Machine

variable {base : Nat → Byte} {bound : Nat}

theorem wfFrom_cons {lo a : Nat} {v : Byte} {m : Memory} :
    Memory.wfFrom base bound lo ((a, v) :: m) = true ↔
      lo ≤ a ∧ a < bound ∧ v ≠ base a ∧ Memory.wfFrom base bound (a + 1) m = true := by
  simp [Memory.wfFrom, and_assoc]

/-- Canonical form from an index on is canonical form from any lower one. -/
theorem wfFrom_mono {lo lo' : Nat} (h : lo' ≤ lo) {m : Memory} (hm : Memory.wfFrom base bound lo m = true) :
    Memory.wfFrom base bound lo' m = true := by
  cases m with
  | nil => rfl
  | cons c m =>
    obtain ⟨a, v⟩ := c
    rw [wfFrom_cons] at hm ⊢
    exact ⟨h.trans hm.1, hm.2⟩

/-- An index below all listed ones reads as unlisted. -/
theorem read_below {m : Memory} {lo x : Nat} (hm : Memory.wfFrom base bound lo m = true) (hx : x < lo) :
    m.read base x = base x := by
  induction m generalizing lo with
  | nil => rfl
  | cons c m ih =>
    obtain ⟨a, v⟩ := c
    rw [wfFrom_cons] at hm
    rw [Memory.read, if_neg (by omega)]
    exact ih hm.2.2.2 (by omega)

/-- An index outside the buffer reads as unlisted. -/
theorem read_beyond {m : Memory} {lo x : Nat} (hm : Memory.wfFrom base bound lo m = true) (hx : bound ≤ x) :
    m.read base x = base x := by
  induction m generalizing lo with
  | nil => rfl
  | cons c m ih =>
    obtain ⟨a, v⟩ := c
    rw [wfFrom_cons] at hm
    rw [Memory.read, if_neg (by omega)]
    exact ih hm.2.2.2

/-- A write leaves every other index alone, whatever the memory's form. -/
theorem read_write_other (m : Memory) {a x : Nat} (v : Byte) (hx : x ≠ a) :
    (m.write base a v).read base x = m.read base x := by
  induction m with
  | nil => by_cases hv : v = base a <;> simp [Memory.write, Memory.read, hv, hx]
  | cons c m ih =>
    obtain ⟨b, w⟩ := c
    simp only [Memory.write]
    split_ifs with h1 h2 h3 h4 <;> simp [Memory.read, hx, ih] <;> intros <;> omega

/-- The index written reads as the byte written. -/
theorem read_write_same {m : Memory} {lo : Nat} (hm : Memory.wfFrom base bound lo m = true) (a : Nat) (v : Byte) :
    (m.write base a v).read base a = v := by
  induction m generalizing lo with
  | nil => by_cases hv : v = base a <;> simp [Memory.write, Memory.read, hv]
  | cons c m ih =>
    obtain ⟨b, w⟩ := c
    have hc := wfFrom_cons.1 hm
    simp only [Memory.write]
    split_ifs with h1 h2 h3 h4
    · rw [h2, Memory.read, if_neg (by omega), read_below hc.2.2.2 (by omega)]
    · simp [Memory.read]
    · rw [h4, h3, read_below hc.2.2.2 (by omega)]
    · simp [Memory.read]
    · simp [Memory.read, h3, ih hc.2.2.2]

/-- Reading after writing. -/
theorem read_write {m : Memory} {lo : Nat} (hm : Memory.wfFrom base bound lo m = true) (a x : Nat) (v : Byte) :
    (m.write base a v).read base x = if x = a then v else m.read base x := by
  split_ifs with h
  · rw [h, read_write_same hm]
  · exact read_write_other m v h

/-- A write keeps the canonical form. -/
theorem wfFrom_write {m : Memory} {lo a : Nat} (v : Byte) (hm : Memory.wfFrom base bound lo m = true) (hlo : lo ≤ a)
    (ha : a < bound) : Memory.wfFrom base bound lo (m.write base a v) = true := by
  induction m generalizing lo with
  | nil =>
    simp only [Memory.write]
    split_ifs with h
    · rfl
    · exact wfFrom_cons.2 ⟨hlo, ha, h, rfl⟩
  | cons c m ih =>
    obtain ⟨b, w⟩ := c
    have hc := wfFrom_cons.1 hm
    simp only [Memory.write]
    split_ifs with h1 h2 h3 h4
    · exact hm
    · exact wfFrom_cons.2 ⟨hlo, ha, h2, wfFrom_cons.2 ⟨h1, hc.2⟩⟩
    · exact wfFrom_mono (by omega) hc.2.2.2
    · exact wfFrom_cons.2 ⟨hlo, ha, h4, h3 ▸ hc.2.2.2⟩
    · exact wfFrom_cons.2 ⟨hc.1, hc.2.1, hc.2.2.1, ih hc.2.2.2 (by omega)⟩

/-- Building from a list gives a canonical memory. -/
theorem wfFrom_ofBytesFrom (vs : List Byte) (i : Nat) (h : i + vs.length ≤ bound) :
    Memory.wfFrom base bound i (Memory.ofBytesFrom base i vs) = true := by
  induction vs generalizing i with
  | nil => rfl
  | cons v vs ih =>
    simp only [List.length_cons] at h
    have := ih (i + 1) (by omega)
    simp only [Memory.ofBytesFrom]
    split_ifs with hv
    · exact wfFrom_mono (by omega) this
    · exact wfFrom_cons.2 ⟨le_rfl, by omega, hv, this⟩

/-- What a memory built from a list reads as. -/
theorem read_ofBytesFrom (vs : List Byte) (i x : Nat) :
    (Memory.ofBytesFrom base i vs).read base x = if i ≤ x then vs.getD (x - i) (base x) else base x := by
  induction vs generalizing i with
  | nil => simp [Memory.ofBytesFrom, Memory.read]
  | cons v vs ih =>
    simp only [Memory.ofBytesFrom]
    have tail := ih (i + 1)
    rcases lt_trichotomy x i with h | h | h
    · rw [if_neg (by omega : ¬i + 1 ≤ x)] at tail
      rw [if_neg (by omega : ¬i ≤ x)]
      split_ifs with hv
      · exact tail
      · rw [Memory.read, if_neg (by omega), tail]
    · subst h
      rw [if_neg (by omega : ¬x + 1 ≤ x)] at tail
      rw [if_pos le_rfl]
      split_ifs with hv
      · simp [tail, hv]
      · simp [Memory.read]
    · have e : x - i = x - (i + 1) + 1 := by omega
      rw [if_pos (by omega : i + 1 ≤ x)] at tail
      rw [if_pos h.le, e, List.getD_cons_succ]
      split_ifs with hv
      · exact tail
      · rw [Memory.read, if_neg (by omega), tail]

/-- Reading all bytes in order gives a list of that length. -/
@[simp] theorem toBytes_length (m : Memory) (n : Nat) : (m.toBytes base n).length = n := by simp [Memory.toBytes]

/-- And its elements are the bytes. -/
theorem toBytes_getElem? (m : Memory) {n i : Nat} (h : i < n) : (m.toBytes base n)[i]? = some (m.read base i) := by
  simp [Memory.toBytes, h]

theorem wf_nil : Memory.wf base bound [] = true := rfl

theorem wf_write {m : Memory} {a : Nat} (v : Byte) (hm : m.wf base bound = true) (ha : a < bound) :
    (m.write base a v).wf base bound = true := wfFrom_write v hm (Nat.zero_le a) ha

theorem wf_ofBytes {vs : List Byte} (h : vs.length ≤ bound) : (Memory.ofBytesFrom base 0 vs).wf base bound = true :=
  wfFrom_ofBytesFrom vs 0 (by omega)

/-- Keeping the indices below a bound keeps the canonical form, within that bound. -/
theorem wfFrom_filter {m : Memory} {lo : Nat} (n : Nat) (hm : Memory.wfFrom base bound lo m = true) :
    Memory.wfFrom base n lo (m.filter (fun c => c.1 < n)) = true := by
  induction m generalizing lo with
  | nil => rfl
  | cons c m ih =>
    obtain ⟨a, v⟩ := c
    have hc := wfFrom_cons.1 hm
    by_cases h : a < n
    · simpa [h, wfFrom_cons, hc.1, hc.2.2.1] using ih hc.2.2.2
    · simpa [h] using wfFrom_mono (by omega) (ih hc.2.2.2)

end Sys2Proof.Machine
end

