-- ==== Sys2Proof/Laws/Operands.lean ====
section
/-! SUPPORT. Laws of the address decoder and of the LOADROM targets: when each answers what. -/

namespace Sys2Proof.Machine

/-- The decoder with its constants written out (20_memory.md R36). -/
theorem select_def (rs : RamSize) (a : Addr) : select rs a =
    if a.toNat < rs.bytes then .ram a.toNat
    else if 0xC000 ≤ a.toNat ∧ a.toNat ≤ 0xE7FF then .rom (a.toNat - 0xC000)
    else if 0xF000 ≤ a.toNat ∧ a.toNat ≤ 0xFFFF then .rom (a.toNat - 0xF000 + 0x2800)
    else if 0x8000 ≤ a.toNat ∧ a.toNat ≤ 0x83FF then .video (a.toNat - 0x8000)
    else if 0xE800 ≤ a.toNat ∧ a.toNat ≤ 0xEFFF then .io (a.toNat - 0xE800)
    else .none := by
  simp only [select, Config.ramBase, Nat.zero_le, true_and, Nat.zero_add, Nat.sub_zero]
  rfl

/-- The tests of the decoder are those of `rangeTests`, in that order. -/
theorem select_eq_firstMatch (rs : RamSize) (a : Addr) : select rs a = firstMatch (rangeTests rs a) := by
  rw [select_def]
  simp only [firstMatch, rangeTests, Config.ramBase, Nat.zero_le, true_and, Nat.zero_add, Nat.sub_zero, decide_eq_true_eq]
  rfl

theorem romAddress_def (k : Nat) : romAddress k = if k < 0x2800 then 0xC000 + k else 0xF000 + (k - 0x2800) := rfl

theorem unmapped_def (rs : RamSize) (a : Addr) :
    unmapped rs a ↔ rs.bytes ≤ a.toNat ∧ a.toNat < 0x8000 ∨ 0x83FF < a.toNat ∧ a.toNat < 0xC000 := by simp [unmapped]

theorem romTarget_def (t : Nat) : romTarget t =
    if 0xC000 ≤ t ∧ t ≤ 0xE7FF then some (t - 0xC000)
    else if 0xF000 ≤ t ∧ t ≤ 0xFFFF then some (t - 0xF000 + 0x2800)
    else none := rfl

section
variable {rs : RamSize} {a : Addr}

/-- RAM serves exactly the addresses below the RAM size (20_memory.md R34). -/
theorem select_eq_ram {i : Nat} : select rs a = .ram i ↔ i = a.toNat ∧ a.toNat < rs.bytes := by
  rw [select_def]
  split_ifs <;> simp <;> omega

/-- The ROM buffer is seen through its two windows (20_memory.md R35, R41). -/
theorem select_eq_rom {k : Nat} : select rs a = .rom k ↔ k < Config.romSize ∧ a.toNat = romAddress k := by
  have := bytes_le rs
  have := addr_toNat_lt a
  rw [select_def, romAddress_def, show Config.romSize = 0x3800 from rfl]
  split_ifs <;> simp <;> omega

/-- Video serves exactly its window (20_memory.md R37). -/
theorem select_eq_video {off : Nat} :
    select rs a = .video off ↔ 0x8000 ≤ a.toNat ∧ a.toNat ≤ 0x83FF ∧ off = a.toNat - 0x8000 := by
  have := bytes_le rs
  rw [select_def]
  split_ifs <;> simp <;> omega

/-- I/O serves exactly its window (20_memory.md R38). -/
theorem select_eq_io {off : Nat} :
    select rs a = .io off ↔ 0xE800 ≤ a.toNat ∧ a.toNat ≤ 0xEFFF ∧ off = a.toNat - 0xE800 := by
  have := bytes_le rs
  rw [select_def]
  split_ifs <;> simp <;> omega

/-- No region serves exactly the unmapped addresses (20_memory.md R39). -/
theorem select_eq_none : select rs a = .none ↔ unmapped rs a := by
  have := bytes_le rs
  have := addr_toNat_lt a
  rw [select_def, unmapped_def]
  split_ifs <;> simp <;> omega

end

/-- A LOADROM byte has a place exactly if its target is the address of a ROM byte (41_host_control.md R96). -/
theorem romTarget_eq_some {t k : Nat} : romTarget t = some k ↔ k < Config.romSize ∧ t = romAddress k := by
  rw [romTarget_def, romAddress_def, show Config.romSize = 0x3800 from rfl]
  split_ifs <;> simp <;> omega

end Sys2Proof.Machine
end

