-- ==== Sys2Proof/Laws/State.lean ====
section
/-! SUPPORT. Laws of State: one lemma per field and update. -/

namespace Sys2Proof.Machine

section
variable (s : State) (rs : RamSize)

@[simp] theorem setRamSize_params : (s.setRamSize rs).params = s.params := rfl
@[simp] theorem setRamSize_ramSize : (s.setRamSize rs).ramSize = rs := rfl
@[simp] theorem setRamSize_ram : (s.setRamSize rs).ram = s.ram := rfl
@[simp] theorem setRamSize_rom : (s.setRamSize rs).rom = s.rom := rfl
@[simp] theorem setRamSize_video : (s.setRamSize rs).video = s.video := rfl
@[simp] theorem setRamSize_io : (s.setRamSize rs).io = s.io := rfl
@[simp] theorem setRamSize_window : (s.setRamSize rs).window = s.window := rfl
@[simp] theorem setRamSize_live : (s.setRamSize rs).live = s.live := rfl
@[simp] theorem setRamSize_pending : (s.setRamSize rs).pending = s.pending := rfl
@[simp] theorem setRamSize_trace : (s.setRamSize rs).trace = s.trace := rfl
@[simp] theorem setRamSize_flagOut : (s.setRamSize rs).flagOut = s.flagOut := rfl
@[simp] theorem setRamSize_response : (s.setRamSize rs).response = s.response := rfl
@[simp] theorem setRamSize_turn : (s.setRamSize rs).turn = s.turn := rfl

end

section
variable (s : State) (m : Memory)

@[simp] theorem setRam_params : (s.setRam m).params = s.params := rfl
@[simp] theorem setRam_ramSize : (s.setRam m).ramSize = s.ramSize := rfl
@[simp] theorem setRam_ram : (s.setRam m).ram = m := rfl
@[simp] theorem setRam_rom : (s.setRam m).rom = s.rom := rfl
@[simp] theorem setRam_video : (s.setRam m).video = s.video := rfl
@[simp] theorem setRam_io : (s.setRam m).io = s.io := rfl
@[simp] theorem setRam_window : (s.setRam m).window = s.window := rfl
@[simp] theorem setRam_live : (s.setRam m).live = s.live := rfl
@[simp] theorem setRam_pending : (s.setRam m).pending = s.pending := rfl
@[simp] theorem setRam_trace : (s.setRam m).trace = s.trace := rfl
@[simp] theorem setRam_flagOut : (s.setRam m).flagOut = s.flagOut := rfl
@[simp] theorem setRam_response : (s.setRam m).response = s.response := rfl
@[simp] theorem setRam_turn : (s.setRam m).turn = s.turn := rfl

end

section
variable (s : State) (m : Memory)

@[simp] theorem setRom_params : (s.setRom m).params = s.params := rfl
@[simp] theorem setRom_ramSize : (s.setRom m).ramSize = s.ramSize := rfl
@[simp] theorem setRom_ram : (s.setRom m).ram = s.ram := rfl
@[simp] theorem setRom_rom : (s.setRom m).rom = m := rfl
@[simp] theorem setRom_video : (s.setRom m).video = s.video := rfl
@[simp] theorem setRom_io : (s.setRom m).io = s.io := rfl
@[simp] theorem setRom_window : (s.setRom m).window = s.window := rfl
@[simp] theorem setRom_live : (s.setRom m).live = s.live := rfl
@[simp] theorem setRom_pending : (s.setRom m).pending = s.pending := rfl
@[simp] theorem setRom_trace : (s.setRom m).trace = s.trace := rfl
@[simp] theorem setRom_flagOut : (s.setRom m).flagOut = s.flagOut := rfl
@[simp] theorem setRom_response : (s.setRom m).response = s.response := rfl
@[simp] theorem setRom_turn : (s.setRom m).turn = s.turn := rfl

end

section
variable (s : State) (b : Bool)

@[simp] theorem setLive_params : (s.setLive b).params = s.params := rfl
@[simp] theorem setLive_ramSize : (s.setLive b).ramSize = s.ramSize := rfl
@[simp] theorem setLive_ram : (s.setLive b).ram = s.ram := rfl
@[simp] theorem setLive_rom : (s.setLive b).rom = s.rom := rfl
@[simp] theorem setLive_video : (s.setLive b).video = s.video := rfl
@[simp] theorem setLive_io : (s.setLive b).io = s.io := rfl
@[simp] theorem setLive_window : (s.setLive b).window = s.window := rfl
@[simp] theorem setLive_live : (s.setLive b).live = b := rfl
@[simp] theorem setLive_pending : (s.setLive b).pending = s.pending := rfl
@[simp] theorem setLive_trace : (s.setLive b).trace = s.trace := rfl
@[simp] theorem setLive_flagOut : (s.setLive b).flagOut = s.flagOut := rfl
@[simp] theorem setLive_response : (s.setLive b).response = s.response := rfl
@[simp] theorem setLive_turn : (s.setLive b).turn = s.turn := rfl

end

section
variable (s : State) (q : List PortEvent)

@[simp] theorem setPending_params : (s.setPending q).params = s.params := rfl
@[simp] theorem setPending_ramSize : (s.setPending q).ramSize = s.ramSize := rfl
@[simp] theorem setPending_ram : (s.setPending q).ram = s.ram := rfl
@[simp] theorem setPending_rom : (s.setPending q).rom = s.rom := rfl
@[simp] theorem setPending_video : (s.setPending q).video = s.video := rfl
@[simp] theorem setPending_io : (s.setPending q).io = s.io := rfl
@[simp] theorem setPending_window : (s.setPending q).window = s.window := rfl
@[simp] theorem setPending_live : (s.setPending q).live = s.live := rfl
@[simp] theorem setPending_pending : (s.setPending q).pending = q := rfl
@[simp] theorem setPending_trace : (s.setPending q).trace = s.trace := rfl
@[simp] theorem setPending_flagOut : (s.setPending q).flagOut = s.flagOut := rfl
@[simp] theorem setPending_response : (s.setPending q).response = s.response := rfl
@[simp] theorem setPending_turn : (s.setPending q).turn = s.turn := rfl

end

section
variable (s : State) (e : Event)

@[simp] theorem emit_params : (s.emit e).params = s.params := rfl
@[simp] theorem emit_ramSize : (s.emit e).ramSize = s.ramSize := rfl
@[simp] theorem emit_ram : (s.emit e).ram = s.ram := rfl
@[simp] theorem emit_rom : (s.emit e).rom = s.rom := rfl
@[simp] theorem emit_video : (s.emit e).video = s.video := rfl
@[simp] theorem emit_io : (s.emit e).io = s.io := rfl
@[simp] theorem emit_window : (s.emit e).window = s.window := rfl
@[simp] theorem emit_live : (s.emit e).live = s.live := rfl
@[simp] theorem emit_pending : (s.emit e).pending = s.pending := rfl
@[simp] theorem emit_trace : (s.emit e).trace = s.trace ++ [e] := rfl
@[simp] theorem emit_flagOut : (s.emit e).flagOut = s.flagOut := rfl
@[simp] theorem emit_response : (s.emit e).response = s.response := rfl
@[simp] theorem emit_turn : (s.emit e).turn = s.turn := rfl

end

section
variable (s : State) (irq nmi : Blob)

@[simp] theorem handFlags_params : (s.handFlags irq nmi).params = s.params := rfl
@[simp] theorem handFlags_ramSize : (s.handFlags irq nmi).ramSize = s.ramSize := rfl
@[simp] theorem handFlags_ram : (s.handFlags irq nmi).ram = s.ram := rfl
@[simp] theorem handFlags_rom : (s.handFlags irq nmi).rom = s.rom := rfl
@[simp] theorem handFlags_video : (s.handFlags irq nmi).video = s.video := rfl
@[simp] theorem handFlags_io : (s.handFlags irq nmi).io = s.io := rfl
@[simp] theorem handFlags_window : (s.handFlags irq nmi).window = s.window := rfl
@[simp] theorem handFlags_live : (s.handFlags irq nmi).live = s.live := rfl
@[simp] theorem handFlags_pending : (s.handFlags irq nmi).pending = s.pending := rfl
@[simp] theorem handFlags_trace : (s.handFlags irq nmi).trace = s.trace := rfl
@[simp] theorem handFlags_flagOut : (s.handFlags irq nmi).flagOut = s.flagOut ++ [(irq, nmi)] := rfl
@[simp] theorem handFlags_response : (s.handFlags irq nmi).response = s.response := rfl
@[simp] theorem handFlags_turn : (s.handFlags irq nmi).turn = s.turn := rfl

end

section
variable (s : State) (r : Response)

@[simp] theorem respond_params : (s.respond r).params = s.params := rfl
@[simp] theorem respond_ramSize : (s.respond r).ramSize = s.ramSize := rfl
@[simp] theorem respond_ram : (s.respond r).ram = s.ram := rfl
@[simp] theorem respond_rom : (s.respond r).rom = s.rom := rfl
@[simp] theorem respond_video : (s.respond r).video = s.video := rfl
@[simp] theorem respond_io : (s.respond r).io = s.io := rfl
@[simp] theorem respond_window : (s.respond r).window = s.window := rfl
@[simp] theorem respond_live : (s.respond r).live = s.live := rfl
@[simp] theorem respond_pending : (s.respond r).pending = s.pending := rfl
@[simp] theorem respond_trace : (s.respond r).trace = s.trace := rfl
@[simp] theorem respond_flagOut : (s.respond r).flagOut = s.flagOut := rfl
@[simp] theorem respond_response : (s.respond r).response = r := rfl
@[simp] theorem respond_turn : (s.respond r).turn = s.turn := rfl

end

section
variable (s : State)

@[simp] theorem tick_params : (s.tick).params = s.params := rfl
@[simp] theorem tick_ramSize : (s.tick).ramSize = s.ramSize := rfl
@[simp] theorem tick_ram : (s.tick).ram = s.ram := rfl
@[simp] theorem tick_rom : (s.tick).rom = s.rom := rfl
@[simp] theorem tick_video : (s.tick).video = s.video := rfl
@[simp] theorem tick_io : (s.tick).io = s.io := rfl
@[simp] theorem tick_window : (s.tick).window = s.window := rfl
@[simp] theorem tick_live : (s.tick).live = s.live := rfl
@[simp] theorem tick_pending : (s.tick).pending = s.pending := rfl
@[simp] theorem tick_trace : (s.tick).trace = s.trace := rfl
@[simp] theorem tick_flagOut : (s.tick).flagOut = s.flagOut := rfl
@[simp] theorem tick_response : (s.tick).response = s.response := rfl
@[simp] theorem tick_turn : (s.tick).turn = s.turn + 1 := rfl

end

section
variable (s : State) (b : Bool)

@[simp] theorem setWindow_params : (s.setWindow b).params = s.params := rfl
@[simp] theorem setWindow_ramSize : (s.setWindow b).ramSize = s.ramSize := rfl
@[simp] theorem setWindow_ram : (s.setWindow b).ram = s.ram := rfl
@[simp] theorem setWindow_rom : (s.setWindow b).rom = s.rom := rfl
@[simp] theorem setWindow_video : (s.setWindow b).video = s.video := rfl
@[simp] theorem setWindow_io : (s.setWindow b).io = s.io := rfl
@[simp] theorem setWindow_window : (s.setWindow b).window = b := rfl
@[simp] theorem setWindow_live : (s.setWindow b).live = s.live := rfl
@[simp] theorem setWindow_pending : (s.setWindow b).pending = s.pending := rfl
@[simp] theorem setWindow_trace : (s.setWindow b).trace = s.trace := rfl
@[simp] theorem setWindow_flagOut : (s.setWindow b).flagOut = s.flagOut := rfl
@[simp] theorem setWindow_response : (s.setWindow b).response = s.response := rfl
@[simp] theorem setWindow_turn : (s.setWindow b).turn = s.turn := rfl

end

section
variable (s : State)

@[simp] theorem openWindow_eq : s.openWindow = s.setWindow true := rfl
@[simp] theorem closeWindow_eq : s.closeWindow = s.setWindow false := rfl
@[simp] theorem fillRam_eq : s.fillRam = s.setRam [] := rfl
@[simp] theorem writeRam_eq (i : Nat) (v : Byte) :
    s.writeRam i v = s.setRam (s.ram.write (ramBase s.params) i v) := rfl

end

/-! ### The reads of the two buffers see only the buffers and the parameters -/

/-- A RAM byte depends on the RAM buffer and the parameters only. -/
theorem ramAt_congr {s t : State} (hr : t.ram = s.ram) (hp : t.params = s.params) (i : Nat) :
    t.ramAt i = s.ramAt i := by simp only [State.ramAt, hr, hp]

/-- A ROM byte depends on the ROM buffer and the parameters only. -/
theorem romAt_congr {s t : State} (hr : t.rom = s.rom) (hp : t.params = s.params) (k : Nat) :
    t.romAt k = s.romAt k := by simp only [State.romAt, hr, hp]

/-- With nothing listed, every RAM byte is the fill byte. -/
theorem ramAt_of_nothing_listed {s : State} (h : s.ram = []) (i : Nat) : s.ramAt i = s.params.ramFill := by
  simp only [State.ramAt, h, Memory.read, ramBase]

end Sys2Proof.Machine
end

