-- ==== Sys2Proof/Laws/Ops.lean ====
section
/-! SUPPORT. Laws of the shared operations: what each can do, said once. -/

namespace Sys2Proof.Machine

/-! ### LOADROM's loop -/

/-- The loop keeps the canonical form of the ROM buffer. -/
theorem wf_loadRomFrom {base : Nat → Byte} (vs : List Byte) {m : Memory} (t : Nat)
    (hm : m.wf base Config.romSize = true) : (loadRomFrom base m t vs).wf base Config.romSize = true := by
  induction vs generalizing m t with
  | nil => exact hm
  | cons v vs ih =>
    rw [loadRomFrom]
    split
    · rename_i k hk
      exact ih _ (wf_write v hm (romTarget_eq_some.1 hk).1)
    · exact ih _ hm

/-- A byte whose bus address lies below the current target is not changed any more. -/
theorem read_loadRomFrom_below {base : Nat → Byte} (vs : List Byte) (m : Memory) {t k : Nat} (h : romAddress k < t) :
    (loadRomFrom base m t vs).read base k = m.read base k := by
  induction vs generalizing m t with
  | nil => rfl
  | cons v vs ih =>
    rw [loadRomFrom]
    split
    · rename_i j hj
      rw [ih _ (by omega), read_write_other]
      rintro rfl
      have := (romTarget_eq_some.1 hj).2
      omega
    · exact ih _ (by omega)

/-! ### The updates that touch one of the two buffers -/

/-- A RAM byte after a store to RAM. -/
theorem ramAt_writeRam {s : State} (h : s.ram.wf (ramBase s.params) s.ramSize.bytes = true) (i x : Nat) (v : Byte) :
    (s.writeRam i v).ramAt x = if x = i then v else s.ramAt x := read_write h i x v

/-- A RAM byte after a fill. -/
theorem ramAt_fillRam (s : State) (x : Nat) : s.fillRam.ramAt x = s.params.ramFill := rfl

/-- A RAM byte after a well-formed record was put in. -/
theorem ramAt_restored (s : State) (rs : RamSize) (r : SaveRecord) (x : Nat) :
    (s.restored rs r).ramAt x = r.ram.getD x s.params.ramFill := by
  show (Memory.ofBytesFrom (ramBase s.params) 0 r.ram).read (ramBase s.params) x = _
  rw [read_ofBytesFrom, if_pos (Nat.zero_le x)]
  rfl

/-! ### What SAVE returns and what RESTORE leaves, field by field -/

section
variable (s : State) (rs : RamSize) (r : SaveRecord)

@[simp] theorem saveRecord_ramSize : s.saveRecord.ramSize = s.ramSize.bytes := rfl
@[simp] theorem saveRecord_ram : s.saveRecord.ram = s.ram.toBytes (ramBase s.params) s.ramSize.bytes := rfl
@[simp] theorem saveRecord_irq : s.saveRecord.irq = Config.irqFlag s.history := rfl
@[simp] theorem saveRecord_nmi : s.saveRecord.nmi = Config.nmiFlag s.history := rfl
@[simp] theorem saveRecord_io : s.saveRecord.io = Config.ioSaved s.io s.history := rfl

@[simp] theorem restored_params : (s.restored rs r).params = s.params := rfl
@[simp] theorem restored_ramSize : (s.restored rs r).ramSize = rs := rfl
@[simp] theorem restored_ram : (s.restored rs r).ram = Memory.ofBytesFrom (ramBase s.params) 0 r.ram := rfl
@[simp] theorem restored_rom : (s.restored rs r).rom = s.rom := rfl
@[simp] theorem restored_video : (s.restored rs r).video = s.video := rfl
@[simp] theorem restored_io : (s.restored rs r).io = s.io := rfl
@[simp] theorem restored_window : (s.restored rs r).window = false := rfl
@[simp] theorem restored_live : (s.restored rs r).live = s.live := rfl
@[simp] theorem restored_pending : (s.restored rs r).pending = s.pending := rfl
@[simp] theorem restored_trace : (s.restored rs r).trace = s.trace ++ [.io s.io (.restoreState r.io)] := rfl
@[simp] theorem restored_flagOut : (s.restored rs r).flagOut = s.flagOut ++ [(r.irq, r.nmi)] := rfl
@[simp] theorem restored_response : (s.restored rs r).response = .none := rfl
@[simp] theorem restored_turn : (s.restored rs r).turn = s.turn := rfl

end

/-- A SAVE reads as many bytes as the RAM size says, so its record is well formed (42_snapshot.md R105, R109). -/
theorem size?_saveRecord (s : State) : s.saveRecord.size? = some s.ramSize :=
  size?_eq_some.2 ⟨rfl, toBytes_length _ _⟩

end Sys2Proof.Machine
end

