-- ==== Sys2Proof/Laws/PerInstr.lean ====
section
/-! SUPPORT. PerInstr: the family FitsRow. The word the encoder gives an instruction fits the match and mask of its row
of spec/opcode_table.json. -/

namespace Sys2Proof.Laws.FitsRow

/-- The bits of a request, as the opcode table numbers them. -/
def requestBits : Request → BitVec 32
  | .opw w _ => w
  | .addr16 a => a.setWidth 32

/-- The columns `match` and `mask` of an instruction's row, copied from spec/opcode_table.json. -/
def row : Instr → BitVec 32 × BitVec 32
  | .read _ => (0x00000000#32, 0xFF0000FF#32)
  | .write _ _ => (0x20000000#32, 0xFF000000#32)
  | .reset => (0x40000000#32, 0xFFFFFFFF#32)
  | .resize _ => (0x60000000#32, 0xFF0000FF#32)
  | .loadRom _ _ => (0x80000000#32, 0xFF0000FF#32)
  | .save => (0xA0000000#32, 0xFFFFFFFF#32)
  | .restore _ => (0xC0000000#32, 0xFFFFFFFF#32)
  | .reservedOp7 _ => (0xE0000000#32, 0xE0000000#32)
  | .selRam8k _ => (0x0000#32, 0xE000#32)
  | .selRam16k _ => (0x0000#32, 0xC000#32)
  | .selRam32k _ => (0x0000#32, 0x8000#32)
  | .selRomLowA _ => (0xC000#32, 0xE000#32)
  | .selRomLowB _ => (0xE000#32, 0xF800#32)
  | .selRomHigh _ => (0xF000#32, 0xF000#32)
  | .selVideo _ => (0x8000#32, 0xFC00#32)
  | .selIo _ => (0xE800#32, 0xF800#32)
  | .selNone2000 _ => (0x2000#32, 0xE000#32)
  | .selNone4000 _ => (0x4000#32, 0xC000#32)
  | .selNone8400 _ => (0x8400#32, 0xFC00#32)
  | .selNone8800 _ => (0x8800#32, 0xF800#32)
  | .selNone9000 _ => (0x9000#32, 0xF000#32)
  | .selNoneA000 _ => (0xA000#32, 0xE000#32)

def Statement (i : Instr) : Prop := requestBits (encode i) &&& (row i).2 = (row i).1

theorem read (a : Addr) : Statement (.read a) := by
  apply BitVec.eq_of_getLsbD_eq
  intro i hi
  simp only [requestBits, encode, row, BitVec.getLsbD_and, getLsbD_opWord]
  interval_cases i <;> simp

theorem write (a : Addr) (v : Byte) : Statement (.write a v) := by
  apply BitVec.eq_of_getLsbD_eq
  intro i hi
  simp only [requestBits, encode, row, BitVec.getLsbD_and, getLsbD_opWord]
  interval_cases i <;> simp

theorem reset : Statement .reset := by
  show opWord 0b010#3 0#16 0#8 &&& 0xFFFFFFFF#32 = 0x40000000#32
  decide

theorem resize (n : BitVec 16) : Statement (.resize n) := by
  apply BitVec.eq_of_getLsbD_eq
  intro i hi
  simp only [requestBits, encode, row, BitVec.getLsbD_and, getLsbD_opWord]
  interval_cases i <;> simp

theorem loadRom (b : Addr) (bytes : List Byte) : Statement (.loadRom b bytes) := by
  apply BitVec.eq_of_getLsbD_eq
  intro i hi
  simp only [requestBits, encode, row, BitVec.getLsbD_and, getLsbD_opWord]
  interval_cases i <;> simp

theorem save : Statement .save := by
  show opWord 0b101#3 0#16 0#8 &&& 0xFFFFFFFF#32 = 0xA0000000#32
  decide

theorem restore (r : RecordOperand) : Statement (.restore r) := by
  show opWord 0b110#3 0#16 0#8 &&& 0xFFFFFFFF#32 = 0xC0000000#32
  decide

theorem reservedOp7 (x : BitVec 29) : Statement (.reservedOp7 x) := by
  apply BitVec.eq_of_getLsbD_eq
  intro i hi
  simp only [requestBits, encode, row, BitVec.getLsbD_and, BitVec.getLsbD_append]
  interval_cases i <;> simp

theorem selRam8k (x : BitVec 13) : Statement (.selRam8k x) := by
  apply BitVec.eq_of_getLsbD_eq
  intro i hi
  simp only [requestBits, encode, row, BitVec.getLsbD_and, BitVec.getLsbD_setWidth, BitVec.getLsbD_append]
  interval_cases i <;> simp

theorem selRam16k (x : BitVec 14) : Statement (.selRam16k x) := by
  apply BitVec.eq_of_getLsbD_eq
  intro i hi
  simp only [requestBits, encode, row, BitVec.getLsbD_and, BitVec.getLsbD_setWidth, BitVec.getLsbD_append]
  interval_cases i <;> simp

theorem selRam32k (x : BitVec 15) : Statement (.selRam32k x) := by
  apply BitVec.eq_of_getLsbD_eq
  intro i hi
  simp only [requestBits, encode, row, BitVec.getLsbD_and, BitVec.getLsbD_setWidth, BitVec.getLsbD_append]
  interval_cases i <;> simp

theorem selRomLowA (x : BitVec 13) : Statement (.selRomLowA x) := by
  apply BitVec.eq_of_getLsbD_eq
  intro i hi
  simp only [requestBits, encode, row, BitVec.getLsbD_and, BitVec.getLsbD_setWidth, BitVec.getLsbD_append]
  interval_cases i <;> simp

theorem selRomLowB (x : BitVec 11) : Statement (.selRomLowB x) := by
  apply BitVec.eq_of_getLsbD_eq
  intro i hi
  simp only [requestBits, encode, row, BitVec.getLsbD_and, BitVec.getLsbD_setWidth, BitVec.getLsbD_append]
  interval_cases i <;> simp

theorem selRomHigh (x : BitVec 12) : Statement (.selRomHigh x) := by
  apply BitVec.eq_of_getLsbD_eq
  intro i hi
  simp only [requestBits, encode, row, BitVec.getLsbD_and, BitVec.getLsbD_setWidth, BitVec.getLsbD_append]
  interval_cases i <;> simp

theorem selVideo (x : BitVec 10) : Statement (.selVideo x) := by
  apply BitVec.eq_of_getLsbD_eq
  intro i hi
  simp only [requestBits, encode, row, BitVec.getLsbD_and, BitVec.getLsbD_setWidth, BitVec.getLsbD_append]
  interval_cases i <;> simp

theorem selIo (x : BitVec 11) : Statement (.selIo x) := by
  apply BitVec.eq_of_getLsbD_eq
  intro i hi
  simp only [requestBits, encode, row, BitVec.getLsbD_and, BitVec.getLsbD_setWidth, BitVec.getLsbD_append]
  interval_cases i <;> simp

theorem selNone2000 (x : BitVec 13) : Statement (.selNone2000 x) := by
  apply BitVec.eq_of_getLsbD_eq
  intro i hi
  simp only [requestBits, encode, row, BitVec.getLsbD_and, BitVec.getLsbD_setWidth, BitVec.getLsbD_append]
  interval_cases i <;> simp

theorem selNone4000 (x : BitVec 14) : Statement (.selNone4000 x) := by
  apply BitVec.eq_of_getLsbD_eq
  intro i hi
  simp only [requestBits, encode, row, BitVec.getLsbD_and, BitVec.getLsbD_setWidth, BitVec.getLsbD_append]
  interval_cases i <;> simp

theorem selNone8400 (x : BitVec 10) : Statement (.selNone8400 x) := by
  apply BitVec.eq_of_getLsbD_eq
  intro i hi
  simp only [requestBits, encode, row, BitVec.getLsbD_and, BitVec.getLsbD_setWidth, BitVec.getLsbD_append]
  interval_cases i <;> simp

theorem selNone8800 (x : BitVec 11) : Statement (.selNone8800 x) := by
  apply BitVec.eq_of_getLsbD_eq
  intro i hi
  simp only [requestBits, encode, row, BitVec.getLsbD_and, BitVec.getLsbD_setWidth, BitVec.getLsbD_append]
  interval_cases i <;> simp

theorem selNone9000 (x : BitVec 12) : Statement (.selNone9000 x) := by
  apply BitVec.eq_of_getLsbD_eq
  intro i hi
  simp only [requestBits, encode, row, BitVec.getLsbD_and, BitVec.getLsbD_setWidth, BitVec.getLsbD_append]
  interval_cases i <;> simp

theorem selNoneA000 (x : BitVec 13) : Statement (.selNoneA000 x) := by
  apply BitVec.eq_of_getLsbD_eq
  intro i hi
  simp only [requestBits, encode, row, BitVec.getLsbD_and, BitVec.getLsbD_setWidth, BitVec.getLsbD_append]
  interval_cases i <;> simp

end Sys2Proof.Laws.FitsRow
end

