-- ==== Sys2Proof/Laws/Step.lean ====
section
/-! SUPPORT. Laws of the meanings and of the step: when each answers a next state, and which one. -/

namespace Sys2Proof.Machine

/-- RESIZE answers a next state exactly for a legal size inside the window. -/
theorem execResize_next {n : BitVec 16} {s t : State} : execResize n s = .next t ↔
    ∃ rs, RamSize.ofBytes? n.toNat = some rs ∧ s.window = true ∧ t = (s.setRamSize rs).fillRam.respond .none := by
  unfold execResize
  cases RamSize.ofBytes? n.toNat with
  | none => simp
  | some rs => cases h : s.window <;> simp [eq_comm]

/-- RESTORE answers a next state exactly for a well-formed record. -/
theorem execRestore_next {r : RecordOperand} {s t : State} : execRestore r s = .next t ↔
    ∃ rec rs, r.record? Config.hexSpelling = some rec ∧ rec.size? = some rs ∧ t = s.restored rs rec := by
  unfold execRestore
  cases r.record? Config.hexSpelling with
  | none => simp
  | some rec => cases h : rec.size? <;> simp [h, eq_comm]

/-- What READ leaves behind: one of five things, by the region that serves the address. -/
theorem execRead_cases (a : Addr) (s : State) : ∃ t, execRead a s = .next t ∧
    ((∃ i, select s.ramSize a = .ram i ∧ t = s.closeWindow.respond (.byte (s.ramAt i))) ∨
    (∃ k, select s.ramSize a = .rom k ∧ t = s.closeWindow.respond (.byte (s.romAt k))) ∨
    (∃ off, select s.ramSize a = .video off ∧
      t = (s.closeWindow.emit (.video s.video (.read off))).respond (.byte (s.videoByte off))) ∨
    (∃ off, select s.ramSize a = .io off ∧
      t = (s.closeWindow.emit (.io s.io (.read off))).respond (.byte (s.ioByte off))) ∨
    (select s.ramSize a = .none ∧ t = s.closeWindow.respond (.byte s.params.unmappedRead))) := by
  refine ⟨_, rfl, ?_⟩
  cases select s.ramSize a <;> simp

/-- What WRITE leaves behind: one of four things, by the region that serves the address. -/
theorem execWrite_cases (a : Addr) (v : Byte) (s : State) : ∃ t, execWrite a v s = .next t ∧
    ((∃ i, select s.ramSize a = .ram i ∧ t = (s.closeWindow.writeRam i v).respond .none) ∨
    (((∃ k, select s.ramSize a = .rom k) ∨ select s.ramSize a = .none) ∧ t = s.closeWindow.respond .none) ∨
    (∃ off, select s.ramSize a = .video off ∧
      t = (s.closeWindow.emit (.video s.video (.write off v))).respond .none) ∨
    (∃ off, select s.ramSize a = .io off ∧
      t = (s.closeWindow.emit (.io s.io (.write off v))).respond .none)) := by
  refine ⟨_, rfl, ?_⟩
  cases select s.ramSize a <;> simp

/-- An address alone always gets an answer, and nothing else changes. -/
theorem presentAddress_next {c : Bool} {row : Select} {a : Addr} {s t : State} :
    presentAddress c row a s = .next t ↔
      t = s.respond (.selected (if c then row else select s.ramSize a)) := by
  simp [presentAddress, eq_comm]

/-- A request answers a next state exactly if it decodes and its instruction does. -/
theorem serveRequest_next {r : Request} {s t : State} :
    serveRequest r s = .next t ↔ ∃ i, decode s.ramSize r = .ok i ∧ exec i s = .next t := by
  unfold serveRequest
  cases decode s.ramSize r with
  | ok i => simp
  | error e => simp

/-- What a step that answers a next state did. -/
theorem step_cases {s t : State} (h : step s = .next t) :
    (s.pending = [] ∧ t = s.tick) ∨
    (∃ r rest i, s.pending = .request r :: rest ∧ s.live = true ∧ decode s.ramSize r = .ok i ∧
      exec i (s.taking rest) = .next t) ∨
    (∃ rest, s.pending = .teardown :: rest ∧ s.live = true ∧
      t = ((s.taking rest).setLive false).respond .none) := by
  unfold step at h
  split at h
  · exact .inl ⟨‹_›, by simpa using h.symm⟩
  · rename_i e rest hp
    unfold serve at h
    split_ifs at h with hl
    cases e with
    | request r =>
      obtain ⟨i, hd, hx⟩ := serveRequest_next.1 h
      exact .inr (.inl ⟨r, rest, i, hp, hl, hd, hx⟩)
    | overlap r₁ r₂ => cases h
    | teardown => exact .inr (.inr ⟨rest, hp, hl, by simpa using h.symm⟩)

/-- Placing a table word keeps the block in form. -/
theorem inv_withFetchWord {s : State} (h : s.Inv) (nbits w : Nat) : (s.withFetchWord nbits w).Inv := by
  unfold State.withFetchWord
  split_ifs
  · exact ⟨h.ram_wf, h.rom_wf, h.window_filled, h.trace_in_window⟩
  · refine ⟨wfFrom_filter RamSize.k8.bytes h.ram_wf, h.rom_wf, fun hw => ?_, h.trace_in_window⟩
    show s.ram.filter _ = []
    rw [h.window_filled hw]
    rfl
  · exact h

/-- Both memories of the state after reset are in canonical form: nothing is listed. -/
theorem reset_memories_wf : State.reset.ram.wf (ramBase State.reset.params) State.reset.ramSize.bytes = true ∧
    State.reset.rom.wf (romBase State.reset.params) Config.romSize = true := ⟨rfl, rfl⟩

end Sys2Proof.Machine
end

