-- ==== Sys2Proof/Tests/Slice0.lean ====
section
/-! SUPPORT. Tests: words written out from the tables of 30_encoding.md, the checks of WellFormed, single operations with
results from 95_test_vectors.md, and for each statement a state and operands that meet its hypotheses. -/

namespace Sys2Proof.Tests

open Sys2Proof.Machine

/-! ### Blocks to test on -/

/-- A block just created with sentinel 0x55, fill 0x44, and ROM full of 0xEA; Video is object 1, I/O object 2. -/
def block (rs : RamSize) : State :=
  State.powerOn ⟨0x55#8, 0x44#8, rs, Vector.replicate Config.romSize 0xEA#8⟩ 1 2

theorem block_inv (rs : RamSize) : (block rs).Inv :=
  ⟨rfl, rfl, fun _ => rfl, fun _ h => nomatch h⟩

/-- The block after some operations, or as it was where one is refused. -/
def after (is : List Instr) (s : State) : State :=
  match execAll is s with
  | .next t => t
  | .fault _ => s
  | .refused _ => s

/-- What an operation returns. -/
def answer (i : Instr) (s : State) : Option Response :=
  match exec i s with
  | .next t => some t.response
  | .fault _ => none
  | .refused _ => none

/-- Why an operation is refused. -/
def refusal (i : Instr) (s : State) : Option Refusal :=
  match exec i s with
  | .next _ => none
  | .fault _ => none
  | .refused r => some r

/-- Why a step is refused. -/
def stepRefusal (s : State) : Option Refusal :=
  match step s with
  | .next _ => none
  | .fault _ => none
  | .refused r => some r

/-! ### Decoding: words from the tables of 30_encoding.md R62 to R66, bit by bit -/

theorem test_decode_read : decode .k8 (.opw 0b000_00000_0000010000000001_00000000#32 .none) = .ok (.read 0x0401#16) := by
  decide
theorem test_decode_write :
    decode .k8 (.opw 0b001_00000_1000000000000000_01000001#32 .none) = .ok (.write 0x8000#16 0x41#8) := by decide
theorem test_decode_reset : decode .k8 (.opw 0b010_00000_0000000000000000_00000000#32 .none) = .ok .reset := by decide
theorem test_decode_resize :
    decode .k8 (.opw 0b011_00000_0100000000000000_00000000#32 .none) = .ok (.resize 16384#16) := by decide
theorem test_decode_loadRom : decode .k8 (.opw 0b100_00000_1100000000000000_00000000#32 (.bytes [0xA9#8])) =
    .ok (.loadRom 0xC000#16 [0xA9#8]) := by decide
theorem test_decode_save : decode .k8 (.opw 0b101_00000_0000000000000000_00000000#32 .none) = .ok .save := by decide
theorem test_decode_restore : decode .k8 (.opw 0b110_00000_0000000000000000_00000000#32 (.record (.text ['x']))) =
    .ok (.restore (.text ['x'])) := by decide
theorem test_decode_reservedOp7 :
    decode .k8 (.opw 0b111_00000000000000000000000000001#32 .none) = .ok (.reservedOp7 1#29) := by decide
theorem test_decode_selRam8k : decode .k8 (.addr16 0b000_0010000000001#16) = .ok (.selRam8k 0x401#13) := by decide
theorem test_decode_selRam16k : decode .k16 (.addr16 0b00_10000000000000#16) = .ok (.selRam16k 0x2000#14) := by decide
theorem test_decode_selRam32k : decode .k32 (.addr16 0b0_111111111111111#16) = .ok (.selRam32k 0x7FFF#15) := by decide
theorem test_decode_selRomLowA : decode .k8 (.addr16 0b110_1111111111111#16) = .ok (.selRomLowA 0x1FFF#13) := by decide
theorem test_decode_selRomLowB : decode .k8 (.addr16 0b11100_00000000000#16) = .ok (.selRomLowB 0#11) := by decide
theorem test_decode_selRomHigh : decode .k8 (.addr16 0b1111_111111111100#16) = .ok (.selRomHigh 0xFFC#12) := by decide
theorem test_decode_selVideo : decode .k8 (.addr16 0b100000_1111111111#16) = .ok (.selVideo 0x3FF#10) := by decide
theorem test_decode_selIo : decode .k8 (.addr16 0b11101_00001001100#16) = .ok (.selIo 0x04C#11) := by decide
theorem test_decode_selNone2000 : decode .k8 (.addr16 0b001_0000000000000#16) = .ok (.selNone2000 0#13) := by decide
theorem test_decode_selNone4000 : decode .k16 (.addr16 0b01_11111111111111#16) = .ok (.selNone4000 0x3FFF#14) := by decide
theorem test_decode_selNone8400 : decode .k8 (.addr16 0b100001_0000000000#16) = .ok (.selNone8400 0#10) := by decide
theorem test_decode_selNone8800 : decode .k8 (.addr16 0b10001_11111111111#16) = .ok (.selNone8800 0x7FF#11) := by decide
theorem test_decode_selNone9000 : decode .k8 (.addr16 0b1001_000000000000#16) = .ok (.selNone9000 0#12) := by decide
theorem test_decode_selNoneA000 : decode .k8 (.addr16 0b101_1111111111111#16) = .ok (.selNoneA000 0x1FFF#13) := by decide

/-- V-OPW, "Refused words". -/
theorem test_decode_reserved_words :
    decode .k8 (.opw 0x00040101#32 .none) = .error .reservedEncoding ∧
    decode .k8 (.opw 0x01040100#32 .none) = .error .reservedEncoding ∧
    decode .k8 (.opw 0x40000100#32 .none) = .error .reservedEncoding ∧
    decode .k8 (.opw 0xA0000001#32 .none) = .error .reservedEncoding := by decide

/-- A LOADROM word without its payload, and a READ word with one (30_encoding.md R66, side-band column). -/
theorem test_decode_sideband : decode .k8 (.opw 0x80C00000#32 .none) = .error .sideBandMismatch ∧
    decode .k8 (.opw 0x00040100#32 (.bytes [])) = .error .sideBandMismatch := by decide

/-! ### WellFormed refuses, one ill-formed term for each check -/

theorem test_wf_resize : (Instr.resize 4096#16).wf = false ∧ (Instr.resize 8192#16).wf = true := by decide
theorem test_wf_restore_size : (Instr.restore (.tuple ⟨12288, [], [], [], []⟩)).wf = false := by decide
theorem test_wf_restore_length : (Instr.restore (.tuple ⟨8192, [0#8], [], [], []⟩)).wf = false := by decide
theorem test_wf_restore_fields : (Instr.restore (.text [';', ';', ';'])).wf = false := by decide
theorem test_wf_reservedOp7 : (Instr.reservedOp7 0#29).wf = false := by decide

/-! ### The constants: the table of 00_scope.md R5 -/

theorem test_constants_space : Config.addrBits = 16 ∧ Config.dataBits = 8 ∧ Config.ramBase = 0x0000 ∧
    Config.ramSizes = #v[0x2000, 0x4000, 0x8000] ∧ Config.ramMax = 32768 := by decide
theorem test_constants_windows : Config.videoBase = 0x8000 ∧ Config.videoLast = 0x83FF ∧ Config.videoSize = 1024 ∧
    Config.romLowBase = 0xC000 ∧ Config.romLowLast = 0xE7FF ∧ Config.romLowSize = 10240 ∧ Config.ioBase = 0xE800 ∧
    Config.ioLast = 0xEFFF ∧ Config.ioSize = 2048 ∧ Config.romHighBase = 0xF000 ∧ Config.romHighLast = 0xFFFF ∧
    Config.romHighSize = 4096 ∧ Config.romSize = 14336 := by decide

/-! ### READ and WRITE: V-RD, V-WR -/

/-- V-RD 2, 3: the last RAM byte, the first unmapped address. -/
theorem test_read_ram_edge : answer (.read 0x1FFF#16) (block .k8) = some (.byte 0x44#8) ∧
    answer (.read 0x2000#16) (block .k8) = some (.byte 0x55#8) := by decide
/-- V-RD 8: the event of a forwarded READ. -/
theorem test_read_video_event : (after [.read 0x83FF#16] (block .k8)).trace = [.video 1 (.read 0x3FF)] := by decide
/-- V-WR 10, and the window. -/
theorem test_write_last_wins : answer (.read 0x0401#16) (after [.write 0x0401#16 0x12#8, .write 0x0401#16 0x34#8]
    (block .k8)) = some (.byte 0x34#8) ∧ (after [.write 0x9000#16 0#8] (block .k8)).window = false := by decide
/-- V-WR 9: the last Video address is forwarded, the address after it is not. -/
theorem test_write_video_edge :
    (after [.write 0x83FF#16 0x20#8, .write 0x8400#16 0x20#8] (block .k8)).trace = [.video 1 (.write 0x3FF 0x20#8)] := by
  decide

/-! ### RESET, RESIZE, LOADROM: V-RS, V-RZ, V-LR -/

/-- V-RS 1. -/
theorem test_reset_refills : answer (.read 0x3FFF#16) (after [.write 0x3FFF#16 0x12#8, .reset] (block .k16)) =
    some (.byte 0x44#8) := by decide
/-- V-RS 4. -/
theorem test_reset_events : (after [.reset, .reset] (block .k8)).trace =
    [.io 2 .reset, .video 1 .reset, .io 2 .reset, .video 1 .reset] := by decide
/-- V-RZ 1, 2. -/
theorem test_resize_moves_boundary : answer (.read 0x2000#16) (after [.resize 16384#16] (block .k8)) = some (.byte 0x44#8) ∧
    answer (.read 0x4000#16) (after [.resize 16384#16] (block .k8)) = some (.byte 0x55#8) := by decide
/-- V-RZ 6, 9, 12. -/
theorem test_resize_refusals : refusal (.resize 8193#16) (block .k8) = some .illegalRamSize ∧
    refusal (.resize 16384#16) (after [.write 0x9000#16 0#8] (block .k8)) = some .resizeOutsideWindow ∧
    refusal (.resize 16384#16) (after [.write 0x9000#16 0#8, .reset] (block .k8)) = none := by decide
/-- V-LR 5, 8: what falls on the I/O window or past 0xFFFF is dropped. -/
theorem test_loadRom_edges :
    (after [.loadRom 0xE7FF#16 [1#8, 2#8], .loadRom 0xFFFF#16 [3#8, 4#8]] (block .k8)).rom =
      [(0x27FF, 1#8), (0x37FF, 3#8)] := by decide +kernel
/-- V-LR 12, read over the bus. -/
theorem test_loadRom_overlap :
    answer (.read 0xF001#16) (after [.loadRom 0xF000#16 [1#8, 2#8, 3#8], .loadRom 0xF001#16 [9#8]] (block .k8)) =
      some (.byte 9#8) := by decide +kernel

/-! ### SAVE and RESTORE: V-SV -/

/-- V-SV 1: the window stays open. -/
theorem test_save_keeps_window : (after [.save] (block .k8)).window = true ∧
    (after [.save] (block .k8)).trace = [.io 2 .saveState] := by decide
/-- V-SV 4: the size, and the window. -/
theorem test_restore_size : (after [.restore (.tuple blankRecord)] (block .k16)).ramSize = .k8 ∧
    (after [.restore (.tuple blankRecord)] (block .k16)).window = false := by decide +kernel
/-- V-SV 6. -/
theorem test_restore_malformed :
    refusal (.restore (.tuple ⟨12288, [], [], [], []⟩)) (block .k8) = some .malformedRecord := by decide

/-! ### The address decoder: V-DEC -/

theorem test_select_ram_rows : answer (.selRam8k 0x1FFF#13) (block .k8) = some (.selected (.ram 0x1FFF)) ∧
    answer (.selRam16k 0x3FFF#14) (block .k16) = some (.selected (.ram 0x3FFF)) ∧
    answer (.selRam32k 0x7FFF#15) (block .k32) = some (.selected (.ram 0x7FFF)) := by decide
theorem test_select_rom_rows : answer (.selRomLowA 0x1FFF#13) (block .k8) = some (.selected (.rom 0x1FFF)) ∧
    answer (.selRomLowB 0x7FF#11) (block .k8) = some (.selected (.rom 0x27FF)) ∧
    answer (.selRomHigh 0xFFC#12) (block .k8) = some (.selected (.rom 0x37FC)) := by decide
theorem test_select_device_rows : answer (.selVideo 0x3FF#10) (block .k8) = some (.selected (.video 0x3FF)) ∧
    answer (.selIo 0x04C#11) (block .k8) = some (.selected (.io 0x04C)) := by decide
theorem test_select_unmapped_rows : answer (.selNone2000 0#13) (block .k8) = some (.selected .none) ∧
    answer (.selNone4000 0#14) (block .k16) = some (.selected .none) ∧
    answer (.selNone8400 0#10) (block .k8) = some (.selected .none) ∧
    answer (.selNone8800 0x7FF#11) (block .k8) = some (.selected .none) ∧
    answer (.selNone9000 0#12) (block .k8) = some (.selected .none) ∧
    answer (.selNoneA000 0x1FFF#13) (block .k8) = some (.selected .none) := by decide
/-- A row not in force: 0x2000 is RAM at 16384 bytes. -/
theorem test_select_not_in_force : answer (.selNone2000 0#13) (block .k16) = some (.selected (.ram 0x2000)) := by decide

/-! ### Steps -/

/-- What a step answers to the requester, if it goes on. -/
def stepAnswer (s : State) : Option (Response × List PortEvent) :=
  match step s with
  | .next t => some (t.response, t.pending)
  | .fault _ => none
  | .refused _ => none

/-- A table word placed by `withFetchWord` runs next, from the state after reset. -/
theorem test_step_table_words :
    stepAnswer (State.reset.withFetchWord 32 0x40000000) = some (.none, []) ∧
    stepAnswer (State.reset.withFetchWord 16 0xE84C) = some (.selected (.io 0x4C), []) := by decide

/-- Teardown, and two operations at once (70_reset_and_hazards.md R133, R139). -/
theorem test_step_port_events :
    stepRefusal ((block .k8).setPending [.overlap (.addr16 0#16) (.addr16 0#16)]) = some .overlappingOperations ∧
    stepRefusal (((block .k8).setLive false).setPending [.request (.addr16 0#16)]) = some .afterTeardown ∧
    stepRefusal ((block .k8).setPending [.teardown]) = none := by decide

/-! ### Witnesses: for each statement with hypotheses, a state and operands that meet them

A statement with several clauses has one for each, at a boundary of its range. -/

theorem witness_DecodeOfEncodeIsIdentity : (Instr.selNone4000 0x3FFF#14).activeAt .k16 = true := by decide

theorem witness_EncodeOfDecodeIsIdentity : decode .k16 (.addr16 0x7FFF#16) = .ok (.selNone4000 0x3FFF#14) := by decide

theorem witness_EveryAddressFitsExactlyOneRow :
    (Instr.selRam16k 0#14).activeAt .k16 = true ∧ encode (.selRam16k 0#14) = .addr16 0#16 := by decide

/-- One word for each way of being reserved. -/
theorem witness_ReservedWordsAreRefused :
    ((block .k8).setPending [.request (.opw 0xE0000000#32 .none)]).live = true ∧ opField 0xE0000000#32 = 7#3 ∧
    rsvField 0x01040100#32 ≠ 0#5 ∧ (opField 0x00040101#32 ≠ 1#3 ∧ data8Field 0x00040101#32 ≠ 0#8) ∧
    (opField 0x40000100#32 = 2#3 ∧ arg16Field 0x40000100#32 ≠ 0#16) ∧
    (opField 0xA0000100#32 = 5#3 ∧ arg16Field 0xA0000100#32 ≠ 0#16) ∧
    (opField 0xC0FFFF00#32 = 6#3 ∧ arg16Field 0xC0FFFF00#32 ≠ 0#16) := by decide

/-- The clauses at the boundaries of their ranges, and the tests in the reverse order. -/
theorem witness_NoAddressFitsTwoRegions : select .k16 0x3FFF#16 = .ram 0x3FFF ∧ select .k8 0xE7FF#16 = .rom 0x27FF ∧
    select .k8 0xF000#16 = .rom 0x2800 ∧ select .k32 0x8000#16 = .video 0 ∧ select .k8 0xE800#16 = .io 0 ∧
    (rangeTests .k32 0x8000#16).reverse.Perm (rangeTests .k32 0x8000#16) :=
  ⟨by decide, by decide, by decide, by decide, by decide, List.reverse_perm _⟩

theorem witness_EachRomByteHasOneAddress : 14335 < 14336 ∧ select .k32 0xFFFF#16 = .rom 14335 := by decide

theorem witness_OffsetsLieInTheirStores : select .k32 0x7FFF#16 = .ram 0x7FFF ∧ select .k8 0xFFFF#16 = .rom 0x37FF ∧
    select .k8 0x83FF#16 = .video 0x3FF ∧ select .k8 0xEFFF#16 = .io 0x7FF := by decide

theorem witness_RamRowsSelectRam :
    (block .k8).ramSize = .k8 ∧ (block .k16).ramSize = .k16 ∧ (block .k32).ramSize = .k32 := by decide

theorem witness_UnmappedRowsSelectNothing :
    (block .k8).ramSize = .k8 ∧ ((block .k8).ramSize = .k8 ∨ (block .k8).ramSize = .k16) ∧
    ((block .k16).ramSize = .k8 ∨ (block .k16).ramSize = .k16) := by decide

theorem witness_PatternsAgreeWithRanges : encode (.selIo 0x7FF#11) = .addr16 0xEFFF#16 := by decide

/-- The clauses of READ and of WRITE, each at a boundary of its range. -/
theorem witness_ReadAnswersByAddress : (0x1FFF#16).toNat < (block .k8).ramSize.bytes ∧
    (0xC000 ≤ (0xE7FF#16).toNat ∧ (0xE7FF#16).toNat ≤ 0xE7FF) ∧ 0xF000 ≤ (0xF000#16).toNat ∧
    (0x8000 ≤ (0x83FF#16).toNat ∧ (0x83FF#16).toNat ≤ 0x83FF) ∧
    (0xE800 ≤ (0xE800#16).toNat ∧ (0xE800#16).toNat ≤ 0xEFFF) ∧
    (block .k8).ramSize.bytes ≤ (0x2000#16).toNat ∧ (0x2000#16).toNat < 0x8000 ∧
    0x8400 ≤ (0xBFFF#16).toNat ∧ (0xBFFF#16).toNat ≤ 0xBFFF := by decide

theorem witness_WriteActsByAddress : (block .k8).Inv ∧ (0x1FFF#16).toNat < (block .k8).ramSize.bytes ∧
    (block .k8).ramSize.bytes ≤ (0x2000#16).toNat ∧ unmapped (block .k8).ramSize 0x2000#16 ∧
    (0x8000 ≤ (0x8000#16).toNat ∧ (0x8000#16).toNat ≤ 0x83FF) ∧
    (0xE800 ≤ (0xEFFF#16).toNat ∧ (0xEFFF#16).toNat ≤ 0xEFFF) ∧
    (0xC000 ≤ (0xC000#16).toNat ∧ (0xC000#16).toNat ≤ 0xE7FF) ∧ 0xF000 ≤ (0xFFFF#16).toNat :=
  ⟨block_inv _, by decide, by decide, .inl (by decide), by decide, by decide, by decide, by decide⟩

theorem witness_RomIsSeenThroughTwoWindows : (10239 < 10240 ∧ (0xE7FF#16).toNat = 0xC000 + 10239) ∧
    (0 < 4096 ∧ (0xF000#16).toNat = 0xF000 + 0) ∧ select (block .k8).ramSize 0xF000#16 = .rom 0x2800 ∧
    (0xC000 ≤ (0xE7FF#16).toNat ∧ (0xE7FF#16).toNat ≤ 0xE7FF) ∧ 0xF000 ≤ (0xFFFF#16).toNat := by decide

theorem witness_UnmappedAddressesReadTheSentinel : unmapped (block .k16).ramSize 0x4000#16 ∧
    (∃ t, execAll [.write 0x4000#16 0x77#8] (block .k16) = .next t ∧ unmapped t.ramSize 0x8400#16) :=
  ⟨.inl (by decide), _, rfl, .inr (by decide)⟩

theorem witness_UnforwardedReadIsIdempotent : ((0x7FFF#16).toNat < 0x8000 ∨ 0x8400 ≤ (0x7FFF#16).toNat) ∧
    ((0x7FFF#16).toNat < 0xE800 ∨ 0xF000 ≤ (0x7FFF#16).toNat) ∧
    ((0xF000#16).toNat < 0x8000 ∨ 0x8400 ≤ (0xF000#16).toNat) ∧
    ((0xF000#16).toNat < 0xE800 ∨ 0xF000 ≤ (0xF000#16).toNat) ∧
    ∃ t, exec (.read 0x7FFF#16) (block .k32) = .next t := by
  refine ⟨by decide, by decide, by decide, by decide, _, rfl⟩

theorem witness_WordWrittenIsReadBack : (block .k8).Inv ∧ (0x1FFE#16).toNat + 1 < (block .k8).ramSize.bytes :=
  ⟨block_inv _, by decide⟩

theorem witness_SecondResetOnlySendsEvents : ∃ t, exec .reset (block .k8) = .next t := ⟨_, rfl⟩

theorem witness_ResizeReinitializesRam : (0x8000#16).toNat = RamSize.k32.bytes ∧ (block .k8).window = true := by decide

theorem witness_ResizeIsRefusedWithoutMeaning :
    ((8193#16).toNat ≠ 8192 ∧ (8193#16).toNat ≠ 16384 ∧ (8193#16).toNat ≠ 32768) ∧ (8192#16).toNat = 8192 ∧
    ((block .k8).setWindow false).window = false := by decide

theorem witness_ResizeToHeldSizeChangesNothing :
    (block .k16).Inv ∧ (block .k16).window = true ∧ (16384#16).toNat = (block .k16).ramSize.bytes :=
  ⟨block_inv _, by decide, by decide⟩

/-- A ROM byte below the base address, and the byte at it. -/
theorem witness_LoadRomStoresAddressLinearImage : (block .k8).Inv ∧ 0x27FF < 14336 ∧
    ¬(0xF000#16).toNat ≤ romAddress 0x27FF ∧ 0x2800 < 14336 ∧ (0xF000#16).toNat ≤ romAddress 0x2800 :=
  ⟨block_inv _, by decide, by decide, by decide, by decide⟩

theorem witness_LoadRomInsideOneWindowIsConsecutive : (block .k8).Inv ∧
    (0xC000 ≤ (0xE7FE#16).toNat ∧ (0xE7FE#16).toNat + [1#8, 2#8].length ≤ 0xE800 ∧ 0x27FE = (0xE7FE#16).toNat - 0xC000) ∧
    (0xF000 ≤ (0xFFFE#16).toNat ∧ (0xFFFE#16).toNat + [1#8, 2#8].length ≤ 0x10000 ∧
      0x37FE = (0xFFFE#16).toNat - 0xC800) ∧ 1 < [1#8, 2#8].length :=
  ⟨block_inv _, by decide, by decide, by decide⟩

theorem blankRecord_size : blankRecord.size? = some .k8 := size?_eq_some.2 ⟨rfl, List.length_replicate⟩

theorem exec_restore_blank (s : State) : exec (.restore (.tuple blankRecord)) s = .next (s.restored .k8 blankRecord) :=
  (execRestore_next (r := .tuple blankRecord) (s := s)).2 ⟨blankRecord, .k8, rfl, blankRecord_size, rfl⟩

theorem witness_RestoreReplacesSizeAndRam :
    (RecordOperand.tuple blankRecord).record? Config.hexSpelling = some blankRecord ∧
    blankRecord.ramSize = RamSize.k8.bytes ∧ blankRecord.ram.length = blankRecord.ramSize :=
  ⟨rfl, rfl, List.length_replicate⟩

/-- A lawful spelling: as many strokes as the number says; any other text is no numeral. -/
def strokes : Config.HexSpelling where
  spell n := List.replicate n '1'
  read t := if t.all (· == '1') then some t.length else none
  read_spell n := by simp
  no_separator n := by simp [List.mem_replicate]

/-- A text that reads as a record whose size is illegal, whatever the spelling of numbers is. -/
theorem text_of_illegal_size (h : Config.HexSpelling) :
    (RecordOperand.text (SaveRecord.toText h ⟨12288, [0#8], [], [], []⟩)).record? h = some ⟨12288, [0#8], [], [], []⟩ := by
  have e : splitAtSep ';' (SaveRecord.toText h ⟨12288, [0#8], [], [], []⟩) = [h.spell 12288, h.spell 0, [], [], []] :=
    splitAtSep_joinSep_five (h.no_separator _).1 (h.no_separator _).1 (by decide) (by decide) (by decide)
  simp [RecordOperand.record?, SaveRecord.ofText?, e, splitAtSep_of_not_mem (h.no_separator 0).2, readBytes, h.read_spell]

/-- An illegal size as a tuple and as a text, a RAM field that is too short, and the texts that are no record. -/
theorem witness_MalformedRecordIsRefused :
    (∃ r rec, RecordOperand.record? Config.hexSpelling r = some rec ∧ r = .tuple rec ∧
      rec.ramSize = 8192 ∧ rec.ram.length ≠ rec.ramSize) ∧
    (∃ t rec, RecordOperand.record? Config.hexSpelling (.text t) = some rec ∧
      rec.ramSize ≠ 8192 ∧ rec.ramSize ≠ 16384 ∧ rec.ramSize ≠ 32768) ∧
    SaveRecord.ofText? Config.hexSpelling [';', ';', ';'] = none ∧ [';', ';', ';'].count ';' ≠ 4 ∧
    (';' ∉ ['1'] ∧ ['x'] ∈ splitAtSep ',' ['x', ',', '1'] ∧ ∀ k, strokes.read ['x'] = some k → 256 ≤ k) :=
  ⟨⟨.tuple ⟨8192, [0#8], [], [], []⟩, _, rfl, rfl, rfl, by decide⟩,
    ⟨_, _, text_of_illegal_size _, by decide, by decide, by decide⟩, rfl, by decide, by decide, by decide,
    fun k h => nomatch (show none = some k from h)⟩

theorem witness_RestoreOfSaveIsIdentity :
    ∃ t rec, (block .k8).Inv ∧ exec .save (block .k8) = .next t ∧ t.response = .record rec :=
  ⟨_, _, block_inv _, rfl, rfl⟩

theorem witness_SaveOfRestoreReturnsRecord :
    (RecordOperand.tuple blankRecord).record? Config.hexSpelling = some blankRecord ∧
    ∃ t, exec (.restore (.tuple blankRecord)) (block .k16) = .next t := ⟨rfl, _, exec_restore_blank _⟩

theorem witness_RecordTextRoundTrips :
    blankRecord.ram ≠ [] ∧ ';' ∉ blankRecord.irq ∧ ';' ∉ blankRecord.nmi ∧ ';' ∉ blankRecord.io :=
  ⟨fun h => Nat.succ_ne_zero 8191 (List.length_replicate.symm.trans (congrArg List.length h)), by decide, by decide, by decide⟩

theorem witness_OnlyResizeAndRestoreWriteRamSize :
    ∃ t, exec (.resize 16384#16) (block .k8) = .next t ∧ t.ramSize ≠ (block .k8).ramSize := ⟨_, rfl, by decide⟩

theorem witness_RamIsAccessedAsListed : (block .k8).Inv ∧ (0#16).toNat < (block .k8).ramSize.bytes ∧
    (∃ t, exec .reset (block .k8) = .next t ∧ 8191 < t.ramSize.bytes) ∧
    (∃ t, exec (.resize 32768#16) (block .k8) = .next t ∧ 32767 < t.ramSize.bytes) ∧
    ∃ t, exec (.restore (.tuple blankRecord)) (block .k16) = .next t ∧ 8191 < t.ramSize.bytes :=
  ⟨block_inv _, by decide, ⟨_, rfl, by decide⟩, ⟨_, rfl, by decide⟩, _, exec_restore_blank _, by decide⟩

theorem witness_OnlyLoadRomChangesRom : isLoadRom (.write 0xC000#16 0#8) = false ∧
    ∃ t, exec (.write 0xC000#16 0#8) (block .k8) = .next t := ⟨rfl, _, rfl⟩

/-- All four operations go on from this block, and a RESIZE is refused in it. -/
theorem witness_HostOperationsDoNotDependOnRom : (∃ t, exec .reset (block .k8) = .next t) ∧
    (∃ t, exec .save (block .k8) = .next t) ∧ (∃ t, exec (.resize 8192#16) (block .k8) = .next t) ∧
    (∃ t, exec (.restore (.tuple blankRecord)) (block .k8) = .next t) ∧
    exec (.resize 0#16) (block .k8) = .refused .illegalRamSize :=
  ⟨⟨_, rfl⟩, ⟨_, rfl⟩, ⟨_, rfl⟩, ⟨_, exec_restore_blank _⟩, rfl⟩

theorem witness_WindowFollowsOperations : (∃ t, exec .reset (block .k8) = .next t) ∧
    (isAccess (.read 0#16) = true ∧ ∃ t, exec (.read 0#16) (block .k8) = .next t) ∧
    (∃ t, exec (.restore (.tuple blankRecord)) (block .k8) = .next t) ∧
    (Instr.save ≠ .reset ∧ isAccess .save = false ∧ (∀ r, Instr.save ≠ .restore r) ∧
      ∃ t, exec .save (block .k8) = .next t) :=
  ⟨⟨_, rfl⟩, ⟨rfl, _, rfl⟩, ⟨_, exec_restore_blank _⟩, by decide, rfl, fun _ => Instr.noConfusion, _, rfl⟩

theorem witness_ReferencesAndParametersAreFixed : ∃ t, step (block .k8) = .next t := ⟨_, rfl⟩

theorem witness_RamReadAnswersLatestWrite : (block .k8).Inv ∧ (0x0401#16).toNat < (block .k8).ramSize.bytes ∧
    ∃ s₁ t, exec (.write 0x0401#16 0x0B#8) (block .k8) = .next s₁ ∧
      (∀ i ∈ [Instr.write 0x0402#16 0x04#8, .save], leavesRamByte 0x0401#16 i = true) ∧
      execAll [.write 0x0402#16 0x04#8, .save] s₁ = .next t :=
  ⟨block_inv _, by decide, _, _, rfl, by decide, rfl⟩

theorem witness_RomReadAnswersLatestLoad : 0x37FF < 14336 ∧ (0xFFFF#16).toNat = romAddress 0x37FF ∧
    (∀ i ∈ [Instr.write 0xFFFF#16 0xAA#8], isLoadRom i = false) ∧
    ∃ t, execAll [.write 0xFFFF#16 0xAA#8] (block .k8) = .next t := ⟨by decide, by decide, by decide, _, rfl⟩

theorem witness_AccessEventsAppearInIssueOrder :
    ∀ i ∈ [Instr.write 0x8000#16 0x48#8, .read 0xE800#16], isAccess i = true := by decide

theorem witness_EveryMeaningfulOperationCompletes : hasMeaning (.resize 8192#16) (block .k8) = true ∧ (block .k8).Inv :=
  ⟨by decide, block_inv _⟩

theorem witness_StepKeepsTheBlockInForm : (block .k8).Inv ∧
    ((block .k8).setPending [.request (.opw 0x2004010B#32 .none)]).Inv ∧
    ∃ t, step ((block .k8).setPending [.request (.opw 0x2004010B#32 .none)]) = .next t :=
  ⟨block_inv _, ⟨rfl, rfl, fun _ => rfl, fun _ h => nomatch h⟩, _, rfl⟩

theorem witness_PowerOnGivesListedValues : 14335 < Config.romSize := by decide

theorem witness_StepRunsDecodedInstruction :
    ((block .k8).setPending [.request (.opw 0x40000000#32 .none)]).live = true ∧
    ((block .k8).setPending [.request (.opw 0x40000000#32 .none)]).pending = .request (.opw 0x40000000#32 .none) :: [] ∧
    decode ((block .k8).setPending [.request (.opw 0x40000000#32 .none)]).ramSize (.opw 0x40000000#32 .none) =
      .ok .reset := by decide

theorem witness_PortEventsThatAreNoRequest : (block .k8).pending = [] ∧
    ((block .k8).setPending [.teardown]).live = true ∧ ((block .k8).setPending [.teardown]).pending = .teardown :: [] ∧
    (((block .k8).setLive false).setPending [.teardown]).live = false ∧
    ((block .k8).setPending [.overlap (.addr16 0#16) (.addr16 1#16)]).pending =
      .overlap (.addr16 0#16) (.addr16 1#16) :: [] := by decide

theorem witness_CanonicalMemoriesReadingAlikeAreEqual :
    Memory.wf (fun _ => 0#8) 16 [(3, 7#8)] = true ∧
    ∀ a, Memory.read (fun _ => 0#8) [(3, 7#8)] a = Memory.read (fun _ => 0#8) [(3, 7#8)] a := ⟨by decide, fun _ => rfl⟩

end Sys2Proof.Tests
end

/-! # The state of the block (10_state.md)

First a rule for each update of the state and the one lemma that says what an operation can do (`exec_effect`); then the
statements of 10_state.md, each read off from these. -/

namespace Sys2Proof.Machine

/-! ### What an operation can do -/

/-- What an operation that completes leaves behind, by the operation and by the region its address lies in. An address
presented alone only gets an answer. -/
inductive Effect (s : State) : Instr → State → Prop
  | readRam {a : Addr} {i : Nat} (h : select s.ramSize a = .ram i) :
      Effect s (.read a) (s.closeWindow.respond (.byte (s.ramAt i)))
  | readRom {a : Addr} {k : Nat} (h : select s.ramSize a = .rom k) :
      Effect s (.read a) (s.closeWindow.respond (.byte (s.romAt k)))
  | readVideo {a : Addr} {off : Nat} (h : select s.ramSize a = .video off) :
      Effect s (.read a) ((s.closeWindow.emit (.video s.video (.read off))).respond (.byte (s.videoByte off)))
  | readIo {a : Addr} {off : Nat} (h : select s.ramSize a = .io off) :
      Effect s (.read a) ((s.closeWindow.emit (.io s.io (.read off))).respond (.byte (s.ioByte off)))
  | readUnmapped {a : Addr} (h : select s.ramSize a = .none) :
      Effect s (.read a) (s.closeWindow.respond (.byte s.params.unmappedRead))
  | writeRam {a : Addr} {v : Byte} {i : Nat} (h : select s.ramSize a = .ram i) :
      Effect s (.write a v) ((s.closeWindow.writeRam i v).respond .none)
  | writeDropped {a : Addr} {v : Byte} (h : (∃ k, select s.ramSize a = .rom k) ∨ select s.ramSize a = .none) :
      Effect s (.write a v) (s.closeWindow.respond .none)
  | writeVideo {a : Addr} {v : Byte} {off : Nat} (h : select s.ramSize a = .video off) :
      Effect s (.write a v) ((s.closeWindow.emit (.video s.video (.write off v))).respond .none)
  | writeIo {a : Addr} {v : Byte} {off : Nat} (h : select s.ramSize a = .io off) :
      Effect s (.write a v) ((s.closeWindow.emit (.io s.io (.write off v))).respond .none)
  | reset : Effect s .reset
      ((((s.fillRam.emit (.io s.io .reset)).emit (.video s.video .reset)).openWindow).respond .none)
  | resize {n : BitVec 16} {rs : RamSize} (hn : n.toNat = rs.bytes) (hw : s.window = true) :
      Effect s (.resize n) ((s.setRamSize rs).fillRam.respond .none)
  | loadRom (b : Addr) (bytes : List Byte) : Effect s (.loadRom b bytes)
      ((s.setRom (loadRomFrom (romBase s.params) s.rom b.toNat bytes)).respond .none)
  | save : Effect s .save ((s.emit (.io s.io .saveState)).respond (.record s.saveRecord))
  | restore {r : RecordOperand} {rec : SaveRecord} {rs : RamSize} (hr : r.record? Config.hexSpelling = some rec)
      (hs : rec.size? = some rs) : Effect s (.restore r) (s.restored rs rec)
  | presented {i : Instr} {a : BitVec 16} (h : encode i = .addr16 a) (sel : Select) :
      Effect s i (s.respond (.selected sel))

theorem effect_of_execRead {a : Addr} {s t : State} (h : execRead a s = .next t) : Effect s (.read a) t := by
  obtain ⟨t', ht', hc⟩ := execRead_cases a s
  cases ht'.symm.trans h
  obtain ⟨i, hs, rfl⟩ | ⟨k, hs, rfl⟩ | ⟨off, hs, rfl⟩ | ⟨off, hs, rfl⟩ | ⟨hs, rfl⟩ := hc
  · exact .readRam hs
  · exact .readRom hs
  · exact .readVideo hs
  · exact .readIo hs
  · exact .readUnmapped hs

theorem effect_of_execWrite {a : Addr} {v : Byte} {s t : State} (h : execWrite a v s = .next t) :
    Effect s (.write a v) t := by
  obtain ⟨t', ht', hc⟩ := execWrite_cases a v s
  cases ht'.symm.trans h
  obtain ⟨i, hs, rfl⟩ | ⟨hs, rfl⟩ | ⟨off, hs, rfl⟩ | ⟨off, hs, rfl⟩ := hc
  · exact .writeRam hs
  · exact .writeDropped hs
  · exact .writeVideo hs
  · exact .writeIo hs

theorem effect_of_presentAddress {i : Instr} {a : Addr} {c : Bool} {row : Select} {s t : State}
    (hi : encode i = .addr16 a) (h : presentAddress c row a s = .next t) : Effect s i t := by
  rw [presentAddress_next.1 h]
  exact .presented hi _

/-- What an operation that completes did. Every fact below about all operations is read off from this. -/
theorem exec_effect {i : Instr} {s t : State} (h : exec i s = .next t) : Effect s i t := by
  cases i with
  | read a => exact effect_of_execRead h
  | write a v => exact effect_of_execWrite h
  | reset => cases h; exact .reset
  | resize n =>
    obtain ⟨rs, hn, hw, rfl⟩ := execResize_next.1 h
    exact .resize (ofBytes?_eq_some.1 hn) hw
  | loadRom b bytes => cases h; exact .loadRom b bytes
  | save => cases h; exact .save
  | restore r =>
    obtain ⟨rec, rs, hr, hs, rfl⟩ := execRestore_next.1 h
    exact .restore hr hs
  | reservedOp7 x => cases h
  | selRam8k x => exact effect_of_presentAddress rfl h
  | selRam16k x => exact effect_of_presentAddress rfl h
  | selRam32k x => exact effect_of_presentAddress rfl h
  | selRomLowA x => exact effect_of_presentAddress rfl h
  | selRomLowB x => exact effect_of_presentAddress rfl h
  | selRomHigh x => exact effect_of_presentAddress rfl h
  | selVideo x => exact effect_of_presentAddress rfl h
  | selIo x => exact effect_of_presentAddress rfl h
  | selNone2000 x => exact effect_of_presentAddress rfl h
  | selNone4000 x => exact effect_of_presentAddress rfl h
  | selNone8400 x => exact effect_of_presentAddress rfl h
  | selNone8800 x => exact effect_of_presentAddress rfl h
  | selNone9000 x => exact effect_of_presentAddress rfl h
  | selNoneA000 x => exact effect_of_presentAddress rfl h

/-- An address presented alone is none of the seven operations; here, the ones 10_state.md R24 singles out. -/
theorem no_operation_of_encode_addr16 {i : Instr} {a : BitVec 16} (h : encode i = .addr16 a) :
    i ≠ .reset ∧ isAccess i = false ∧ ∀ r, i ≠ .restore r := by
  refine ⟨?_, ?_, ?_⟩
  · rintro rfl
    cases h
  · cases i with
    | read | write => cases h
    | _ => rfl
  · rintro r rfl
    cases h

/-! ### Which updates keep the block in form -/

section
variable {s : State} (hs : s.Inv)
include hs

theorem inv_respond (r : Response) : (s.respond r).Inv :=
  ⟨hs.ram_wf, hs.rom_wf, hs.window_filled, hs.trace_in_window⟩

theorem inv_tick : s.tick.Inv :=
  ⟨hs.ram_wf, hs.rom_wf, hs.window_filled, hs.trace_in_window⟩

theorem inv_taking (rest : List PortEvent) : (s.taking rest).Inv :=
  ⟨hs.ram_wf, hs.rom_wf, hs.window_filled, hs.trace_in_window⟩

theorem inv_setLive (b : Bool) : (s.setLive b).Inv :=
  ⟨hs.ram_wf, hs.rom_wf, hs.window_filled, hs.trace_in_window⟩

/-- With the window closed nothing is asked of the RAM bytes. -/
theorem inv_closeWindow : s.closeWindow.Inv :=
  ⟨hs.ram_wf, hs.rom_wf, nofun, hs.trace_in_window⟩

/-- The window may open over a RAM that is all fill (10_state.md R25). -/
theorem inv_openWindow (hr : s.ram = []) : s.openWindow.Inv :=
  ⟨hs.ram_wf, hs.rom_wf, fun _ => hr, hs.trace_in_window⟩

/-- An event may be sent whose offset lies in its window (10_state.md R22, R23). -/
theorem inv_emit {e : Event} (he : eventInWindow e = true) : (s.emit e).Inv := by
  refine ⟨hs.ram_wf, hs.rom_wf, hs.window_filled, fun e' he' => ?_⟩
  rcases List.mem_append.1 he' with h | h
  · exact hs.trace_in_window e' h
  · rwa [List.mem_singleton.1 h]

/-- A RAM byte may be stored once the window is closed. -/
theorem inv_writeRam {i : Nat} (v : Byte) (hw : s.window = false) (hi : i < s.ramSize.bytes) : (s.writeRam i v).Inv :=
  ⟨wf_write v hs.ram_wf hi, hs.rom_wf, fun h => absurd (hw.symm.trans h) nofun, hs.trace_in_window⟩

/-- A fill keeps the form at whatever size the buffer has. -/
theorem inv_setRamSize_fillRam (rs : RamSize) : (s.setRamSize rs).fillRam.Inv :=
  ⟨wf_nil, hs.rom_wf, fun _ => rfl, hs.trace_in_window⟩

theorem inv_setRom {m : Memory} (hm : m.wf (romBase s.params) Config.romSize = true) : (s.setRom m).Inv :=
  ⟨hs.ram_wf, hm, hs.window_filled, hs.trace_in_window⟩

/-- A well-formed record has as many bytes as its size says, so it may be put in (42_snapshot.md R109). -/
theorem inv_restored {rec : SaveRecord} {rs : RamSize} (hr : rec.size? = some rs) : (s.restored rs rec).Inv := by
  have hlen : rec.ram.length ≤ rs.bytes := (size?_eq_some.1 hr).2.le
  have hput : State.Inv (((s.setRamSize rs).setRam (Memory.ofBytesFrom (ramBase s.params) 0 rec.ram)).closeWindow) :=
    ⟨wf_ofBytes hlen, hs.rom_wf, nofun, hs.trace_in_window⟩
  have hsent := inv_emit hput (e := .io s.io (.restoreState rec.io)) rfl
  exact ⟨hsent.ram_wf, hsent.rom_wf, hsent.window_filled, hsent.trace_in_window⟩

end

/-- The decoder answers a Video offset inside the Video window. -/
theorem video_off_lt {rs : RamSize} {a : Addr} {off : Nat} (h : select rs a = .video off) : off < Config.videoSize := by
  have := select_eq_video.1 h
  simp only [Config.videoSize, Config.videoLast, Config.videoBase]
  omega

/-- The decoder answers an I/O offset inside the I/O window. -/
theorem io_off_lt {rs : RamSize} {a : Addr} {off : Nat} (h : select rs a = .io off) : off < Config.ioSize := by
  have := select_eq_io.1 h
  simp only [Config.ioSize, Config.ioLast, Config.ioBase]
  omega

/-- The decoder answers a RAM index inside the RAM buffer. -/
theorem ram_index_lt {rs : RamSize} {a : Addr} {i : Nat} (h : select rs a = .ram i) : i < rs.bytes := by
  obtain ⟨rfl, hlt⟩ := select_eq_ram.1 h
  exact hlt

/-- Every operation keeps the block in form. -/
theorem exec_inv {i : Instr} {s t : State} (hs : s.Inv) (h : exec i s = .next t) : t.Inv := by
  have hc := inv_closeWindow hs
  cases exec_effect h with
  | readRam | readRom | readUnmapped | writeDropped => exact inv_respond hc _
  | readVideo hsel | writeVideo hsel => exact inv_respond (inv_emit hc (by exact decide_eq_true (video_off_lt hsel))) _
  | readIo hsel | writeIo hsel => exact inv_respond (inv_emit hc (by exact decide_eq_true (io_off_lt hsel))) _
  | writeRam hsel => exact inv_respond (inv_writeRam hc _ rfl (ram_index_lt hsel)) _
  | reset =>
    have hfill : s.fillRam.Inv := inv_setRamSize_fillRam hs s.ramSize
    have hsent := inv_emit (inv_emit hfill (e := .io s.io .reset) rfl) (e := .video s.video .reset) rfl
    exact inv_respond (inv_openWindow hsent rfl) _
  | resize => exact inv_respond (inv_setRamSize_fillRam hs _) _
  | loadRom b bytes => exact inv_respond (inv_setRom hs (wf_loadRomFrom bytes _ hs.rom_wf)) _
  | save => exact inv_respond (inv_emit hs rfl) _
  | restore _ hr => exact inv_restored hs hr
  | presented => exact inv_respond hs _

/-- Settles O47, by the cases of a step: it only counts, or it performs an operation, or it tears the block down. -/
theorem stepKeepsTheBlockInForm : Obligations.StepKeepsTheBlockInForm := by
  intro s t hs h
  obtain ⟨-, rfl⟩ | ⟨r, rest, i, -, -, -, hx⟩ | ⟨rest, -, -, rfl⟩ := step_cases h
  · exact inv_tick hs
  · exact exec_inv (inv_taking hs rest) hx
  · exact inv_respond (inv_setLive (inv_taking hs rest) false) _

/-! ### Power-on -/

/-- The block as created is in form, whatever the open values and the collaborators are (10_state.md R26). -/
theorem inv_powerOn (p : Config.Params) (v io : Ref) : (State.powerOn p v io).Inv :=
  ⟨wf_nil, wf_nil, fun _ => rfl, nofun⟩

/-- Settles O49: reset is a power-on. -/
theorem resetStateIsInForm : Obligations.ResetStateIsInForm := inv_powerOn _ _ _

/-- A ROM byte that nothing was loaded into is its byte of `ROM_INIT` (10_state.md R21). -/
theorem romAt_of_nothing_listed {s : State} (h : s.rom = []) {k : Nat} (hk : k < Config.romSize) :
    s.romAt k = s.params.romInit[k] := by
  simp only [State.romAt, h, Memory.read, romBase, dif_pos hk]

/-- Settles O48: nothing is listed in either buffer. -/
theorem powerOnGivesListedValues : Obligations.PowerOnGivesListedValues := fun _ _ _ =>
  ⟨rfl, fun i => ramAt_of_nothing_listed rfl i, fun _ hk => romAt_of_nothing_listed rfl hk, rfl, rfl, rfl, rfl⟩

/-! ### Who writes what -/

/-- Settles O35, by what each operation leaves behind. -/
theorem onlyResizeAndRestoreWriteRamSize : Obligations.OnlyResizeAndRestoreWriteRamSize := by
  intro i s t h hne
  cases exec_effect h with
  | resize => exact .inl ⟨_, rfl⟩
  | restore => exact .inr ⟨_, rfl⟩
  | _ => exact absurd rfl hne

/-- Settles O37, by what each operation leaves behind. -/
theorem onlyLoadRomChangesRom : Obligations.OnlyLoadRomChangesRom := by
  intro i s t hi h
  cases exec_effect h with
  | loadRom => cases hi
  | _ => rfl

/-- Settles O39, by what each operation leaves behind. -/
theorem windowFollowsOperations : Obligations.WindowFollowsOperations := by
  intro i s t h
  cases exec_effect h with
  | readRam | readRom | readVideo | readIo | readUnmapped | writeRam | writeDropped | writeVideo | writeIo =>
    exact ⟨nofun, fun _ => rfl, nofun⟩
  | reset => exact ⟨fun _ => rfl, nofun, fun hne => absurd rfl hne⟩
  | restore => exact ⟨nofun, fun _ => rfl, fun _ _ hne => absurd rfl (hne _)⟩
  | resize | loadRom | save => exact ⟨nofun, nofun, fun _ _ _ => rfl⟩
  | presented hi =>
    obtain ⟨hreset, hacc, hrestore⟩ := no_operation_of_encode_addr16 hi
    refine ⟨fun e => absurd e hreset, ?_, fun _ _ _ => rfl⟩
    rintro (e | ⟨r, e⟩)
    · exact absurd (hacc.symm.trans e) nofun
    · exact absurd e (hrestore r)

/-- No operation binds a reference anew or changes an open value. -/
theorem exec_keeps_references {i : Instr} {s t : State} (h : exec i s = .next t) :
    t.video = s.video ∧ t.io = s.io ∧ t.params = s.params := by
  cases exec_effect h <;> exact ⟨rfl, rfl, rfl⟩

/-- Settles O40, by the cases of a step. -/
theorem referencesAndParametersAreFixed : Obligations.ReferencesAndParametersAreFixed := by
  intro s t h
  obtain ⟨-, rfl⟩ | ⟨r, rest, i, -, -, -, hx⟩ | ⟨rest, -, -, rfl⟩ := step_cases h
  · exact ⟨rfl, rfl, rfl⟩
  · simpa [State.taking] using exec_keeps_references hx
  · exact ⟨rfl, rfl, rfl⟩

/-! ### RAM, operation by operation (10_state.md R18) -/

theorem execRead_of_ram {a : Addr} {i : Nat} {s : State} (h : select s.ramSize a = .ram i) :
    execRead a s = .next (s.closeWindow.respond (.byte (s.ramAt i))) := by
  simp only [execRead, h]

theorem execWrite_of_ram {a : Addr} {i : Nat} {s : State} (v : Byte) (h : select s.ramSize a = .ram i) :
    execWrite a v s = .next ((s.closeWindow.writeRam i v).respond .none) := by
  simp only [execWrite, h]

/-- READ of a RAM address returns the byte. -/
theorem read_answers_ram_byte {a : Addr} {s : State} (ha : a.toNat < s.ramSize.bytes) :
    ∃ t, exec (.read a) s = .next t ∧ t.response = .byte (s.ramAt a.toNat) :=
  ⟨_, execRead_of_ram (select_eq_ram.2 ⟨rfl, ha⟩), rfl⟩

/-- WRITE to a RAM address stores the byte. -/
theorem write_stores_ram_byte {a : Addr} {s : State} (hs : s.Inv) (ha : a.toNat < s.ramSize.bytes) (v : Byte) :
    ∃ t, exec (.write a v) s = .next t ∧ t.ramAt a.toNat = v :=
  ⟨_, execWrite_of_ram v (select_eq_ram.2 ⟨rfl, ha⟩),
    (ramAt_writeRam (s := s.closeWindow) hs.ram_wf a.toNat a.toNat v).trans (if_pos rfl)⟩

/-- RESET fills RAM and keeps its size. -/
theorem reset_fills_ram {s t : State} (h : exec .reset s = .next t) :
    t.ramSize = s.ramSize ∧ ∀ i, t.ramAt i = s.params.ramFill := by
  cases h
  exact ⟨rfl, fun i => ramAt_of_nothing_listed rfl i⟩

/-- RESIZE fills RAM at the new length. -/
theorem resize_fills_ram {n : BitVec 16} {s t : State} (h : exec (.resize n) s = .next t) :
    t.ramSize.bytes = n.toNat ∧ ∀ i, t.ramAt i = s.params.ramFill := by
  obtain ⟨rs, hn, -, rfl⟩ := execResize_next.1 h
  exact ⟨(ofBytes?_eq_some.1 hn).symm, fun i => ramAt_of_nothing_listed rfl i⟩

/-- RESTORE leaves the record's bytes in RAM. -/
theorem restore_leaves_record_bytes {r : RecordOperand} {rec : SaveRecord} {s t : State}
    (hr : r.record? Config.hexSpelling = some rec) (h : exec (.restore r) s = .next t) {i : Nat}
    (hi : i < t.ramSize.bytes) : rec.ram[i]? = some (t.ramAt i) := by
  obtain ⟨rec', rs, hr', hsize, rfl⟩ := execRestore_next.1 h
  cases hr.symm.trans hr'
  have hlt : i < rec.ram.length := (size?_eq_some.1 hsize).2.symm ▸ hi
  rw [ramAt_restored, List.getD_eq_getElem _ _ hlt, List.getElem?_eq_getElem hlt]

/-- Settles O36, from the facts above, one for each operation. -/
theorem ramIsAccessedAsListed : Obligations.RamIsAccessedAsListed := by
  intro s hs
  refine ⟨fun a ha => ⟨read_answers_ram_byte ha, write_stores_ram_byte hs ha⟩, fun t h => ?_, fun n t h => ?_,
    fun r rec t hr h i hi => restore_leaves_record_bytes hr h hi, ⟨_, s.saveRecord, rfl, rfl, rfl⟩,
    fun b bytes => ⟨_, rfl, rfl⟩⟩
  · obtain ⟨hsize, hfill⟩ := reset_fills_ram h
    exact ⟨hsize, fun i _ => hfill i⟩
  · obtain ⟨hsize, hfill⟩ := resize_fills_ram h
    exact ⟨hsize, fun i _ => hfill i⟩

/-! ### ROM plays no part in RESET, RESIZE, SAVE and RESTORE (10_state.md R20) -/

/-- The outcome with a function applied to the next state, if there is one. -/
def mapNext (f : State → State) : Host.Outcome State Fault Refusal → Host.Outcome State Fault Refusal
  | .next t => .next (f t)
  | .fault e => .fault e
  | .refused r => .refused r

section
variable (s : State) (m : Memory)

theorem execReset_setRom : execReset (s.setRom m) = mapNext (State.setRom · m) (execReset s) := rfl

theorem execSave_setRom : execSave (s.setRom m) = mapNext (State.setRom · m) (execSave s) := rfl

theorem execResize_setRom (n : BitVec 16) :
    execResize n (s.setRom m) = mapNext (State.setRom · m) (execResize n s) := by
  simp only [execResize]
  cases RamSize.ofBytes? n.toNat with
  | none => rfl
  | some rs =>
    show (if s.window = true then _ else _) = mapNext _ (if s.window = true then _ else _)
    split_ifs <;> rfl

theorem execRestore_setRom (r : RecordOperand) :
    execRestore r (s.setRom m) = mapNext (State.setRom · m) (execRestore r s) := by
  simp only [execRestore]
  split
  · rfl
  · split <;> rfl

end

/-- Settles O38: each of the four commutes with putting another ROM buffer in. -/
theorem hostOperationsDoNotDependOnRom : Obligations.HostOperationsDoNotDependOnRom := by
  intro i s m hi
  have hmap : exec i (s.setRom m) = mapNext (State.setRom · m) (exec i s) := by
    obtain rfl | rfl | ⟨n, rfl⟩ | ⟨r, rfl⟩ := hi
    · exact execReset_setRom s m
    · exact execSave_setRom s m
    · exact execResize_setRom s m n
    · exact execRestore_setRom s m r
  exact ⟨fun t h => hmap.trans (congrArg (mapNext _) h), fun r h => hmap.trans (congrArg (mapNext _) h)⟩

/-! ### ROM addresses and canonical memories -/

theorem romAddress_lt {k : Nat} (hk : k < Config.romSize) : romAddress k < 2 ^ 16 := by
  rw [show Config.romSize = 0x3800 from rfl] at hk
  rw [romAddress_def]
  split_ifs <;> omega

/-- Settles O9: the one address of offset `k` is `romAddress k`. -/
theorem eachRomByteHasOneAddress : Obligations.EachRomByteHasOneAddress := by
  intro rs k (hk : k < Config.romSize)
  have ha : (BitVec.ofNat 16 (romAddress k)).toNat = romAddress k :=
    (BitVec.toNat_ofNat ..).trans (Nat.mod_eq_of_lt (romAddress_lt hk))
  refine ⟨BitVec.ofNat 16 (romAddress k), select_eq_rom.2 ⟨hk, ha⟩, fun b hb => ?_⟩
  exact BitVec.eq_of_toNat_eq ((select_eq_rom.1 hb).2.trans ha.symm)

section
variable {base : Nat → Byte} {bound : Nat}

theorem read_head (a : Nat) (v : Byte) (m : Memory) : Memory.read base ((a, v) :: m) a = v := if_pos rfl

/-- A canonical memory that lists an index reads differently there from every canonical memory that starts above it. -/
theorem read_ne_of_head_below {lo a b : Nat} {v : Byte} {m m' : Memory}
    (hm : Memory.wfFrom base bound lo ((a, v) :: m) = true) (hm' : Memory.wfFrom base bound b m' = true) (hab : a < b) :
    Memory.read base ((a, v) :: m) a ≠ m'.read base a := by
  obtain ⟨-, -, hv, -⟩ := wfFrom_cons.1 hm
  rwa [read_head, read_below hm' hab]

/-- Canonical memories that read alike are equal: their first indices agree, then their first bytes, then the rest. -/
theorem eq_of_read_eq {lo : Nat} {m m' : Memory} (hm : Memory.wfFrom base bound lo m = true)
    (hm' : Memory.wfFrom base bound lo m' = true) (h : ∀ x, m.read base x = m'.read base x) : m = m' := by
  induction m generalizing lo m' with
  | nil =>
    cases m' with
    | nil => rfl
    | cons c m' => exact absurd (h c.1).symm (read_ne_of_head_below hm' (b := c.1 + 1) rfl (Nat.lt_succ_self _))
  | cons c m ih =>
    obtain ⟨a, v⟩ := c
    cases m' with
    | nil => exact absurd (h a) (read_ne_of_head_below hm (b := a + 1) rfl (Nat.lt_succ_self _))
    | cons c' m' =>
      obtain ⟨b, w⟩ := c'
      obtain ⟨-, hab, hv, htail⟩ := wfFrom_cons.1 hm
      obtain ⟨-, hbb, hw, htail'⟩ := wfFrom_cons.1 hm'
      rcases lt_trichotomy a b with hlt | rfl | hlt
      · exact absurd (h a) (read_ne_of_head_below hm (wfFrom_cons.2 ⟨le_rfl, hbb, hw, htail'⟩) hlt)
      · obtain rfl : v = w := (read_head a v m).symm.trans ((h a).trans (read_head a w m'))
        have hrest : ∀ x, Memory.read base m x = Memory.read base m' x := fun x => by
          by_cases hx : x = a
          · rw [hx, read_below htail (Nat.lt_succ_self a), read_below htail' (Nat.lt_succ_self a)]
          · simpa only [Memory.read, if_neg hx] using h x
        rw [ih htail htail' hrest]
      · exact absurd (h b).symm (read_ne_of_head_below hm' (wfFrom_cons.2 ⟨le_rfl, hab, hv, htail⟩) hlt)

end

/-- Settles O52: the canonical form from index 0 on. -/
theorem canonicalMemoriesReadingAlikeAreEqual : Obligations.CanonicalMemoriesReadingAlikeAreEqual :=
  fun _ _ _ _ hm hm' h => eq_of_read_eq hm hm' h

end Sys2Proof.Machine

/-! # The address space (20_memory.md)

First the address decoder; then what a READ or a WRITE does in each region, said once; then runs of operations, by one
induction over the list (`execAll_induction`); last a word access and a single step. -/

namespace Sys2Proof.Machine

/-! ### The address decoder: ranges, disjoint tests, counts (R33, R36, R40) -/

/-- Of any two of the tests at most one holds. -/
def Exclusive (tests : List (Bool × Select)) : Prop := tests.Pairwise fun t u => ¬(t.1 = true ∧ u.1 = true)

/-- The tests of the decoder exclude one another, so their order of precedence is immaterial (20_memory.md R40). -/
theorem rangeTests_exclusive (rs : RamSize) (a : Addr) : Exclusive (rangeTests rs a) := by
  have := bytes_le rs
  simp only [Exclusive, rangeTests, Config.ramBase, Config.romLowBase, Config.romLowLast, Config.romHighBase,
    Config.romHighLast, Config.videoBase, Config.videoLast, Config.ioBase, Config.ioLast, List.pairwise_cons,
    List.forall_mem_cons, List.not_mem_nil, decide_eq_true_eq, false_imp_iff, implies_true, and_true, List.Pairwise.nil]
  and_intros <;> omega

/-- Of tests that exclude one another no two are counted. -/
theorem countP_le_one_of_exclusive {tests : List (Bool × Select)}
    (h : Exclusive tests) : tests.countP (fun t => t.1) ≤ 1 := by
  induction tests with
  | nil => exact Nat.zero_le 1
  | cons t ts ih =>
    obtain ⟨hhead, htail⟩ := List.pairwise_cons.1 h
    by_cases ht : t.1 = true
    · have hrest : ts.countP (fun u => u.1) = 0 := List.countP_eq_zero.2 fun u hu hu1 => hhead u hu ⟨ht, hu1⟩
      simp [ht, hrest]
    · simpa [ht] using ih htail

/-- Tests that exclude one another answer the same in every order. -/
theorem firstMatch_perm {tests tests' : List (Bool × Select)} (hp : tests.Perm tests')
    (h : Exclusive tests') : firstMatch tests = firstMatch tests' := by
  have hsymm : ∀ {t u : Bool × Select}, ¬(t.1 = true ∧ u.1 = true) → ¬(u.1 = true ∧ t.1 = true) :=
    fun hn hc => hn hc.symm
  induction hp with
  | nil => rfl
  | cons t _ ih => simp only [firstMatch, ih (List.pairwise_cons.1 h).2]
  | swap t u ts =>
    have htu := (List.pairwise_cons.1 h).1 u (by simp)
    by_cases hu : u.1 = true
    · have ht : ¬t.1 = true := fun ht => htu ⟨ht, hu⟩
      simp [firstMatch, hu, ht]
    · simp [firstMatch, hu]
  | trans _ hp₂ ih₁ ih₂ => exact (ih₁ ((hp₂.pairwise_iff hsymm).2 h)).trans (ih₂ h)

/-- The ROM windows with their offsets written out (20_memory.md R41). -/
theorem select_eq_rom_iff_window {rs : RamSize} {a : Addr} {k : Nat} : select rs a = .rom k ↔
    (0xC000 ≤ a.toNat ∧ a.toNat ≤ 0xE7FF ∧ k = a.toNat - 0xC000) ∨ (0xF000 ≤ a.toNat ∧ k = a.toNat - 0xC800) := by
  have := addr_toNat_lt a
  rw [select_eq_rom, romAddress_def, show Config.romSize = 0x3800 from rfl]
  split_ifs <;> omega

/-- Settles O7: the ranges are those of the decoder's laws, and its tests exclude one another. -/
theorem noAddressFitsTwoRegions : Obligations.NoAddressFitsTwoRegions := by
  intro rs a
  have hexcl := rangeTests_exclusive rs a
  refine ⟨fun i => ?_, fun k => select_eq_rom_iff_window, fun off => select_eq_video, fun off => select_eq_io,
    countP_le_one_of_exclusive hexcl, fun tests hp => ?_⟩
  · cases rs <;> exact select_eq_ram
  · rw [firstMatch_perm hp hexcl, select_eq_firstMatch]

/-- The decoder answers a ROM offset inside the packed buffer. -/
theorem rom_offset_lt {rs : RamSize} {a : Addr} {k : Nat} (h : select rs a = .rom k) : k < Config.romSize :=
  (select_eq_rom.1 h).1

/-- Settles O10: each offset is below the size of its store. -/
theorem offsetsLieInTheirStores : Obligations.OffsetsLieInTheirStores := fun _ _ =>
  ⟨fun _ h => ram_index_lt h, fun _ h => Nat.le_of_lt_succ (rom_offset_lt h),
    fun _ h => Nat.le_of_lt_succ (video_off_lt h), fun _ h => Nat.le_of_lt_succ (io_off_lt h)⟩

/-- How many numbers below a bound lie in one of two intervals, the first wholly below the second. -/
theorem count_two_intervals {n a b c d : Nat} (hbc : b ≤ c) (hcd : c ≤ d) (hdn : d ≤ n) :
    Nat.count (fun k => a ≤ k ∧ k < b ∨ c ≤ k ∧ k < d) n = (b - a) + (d - c) := by
  have hsplit : (Finset.range n).filter (fun k => a ≤ k ∧ k < b ∨ c ≤ k ∧ k < d) =
      Finset.Ico a b ∪ Finset.Ico c d := by
    ext k
    simp only [Finset.mem_filter, Finset.mem_range, Finset.mem_union, Finset.mem_Ico]
    omega
  have hdisj : Disjoint (Finset.Ico a b) (Finset.Ico c d) :=
    Finset.disjoint_left.2 fun k hk hk' => by
      rw [Finset.mem_Ico] at hk hk'
      omega
  rw [Nat.count_eq_card_filter_range, hsplit, Finset.card_union_of_disjoint hdisj, Nat.card_Ico, Nat.card_Ico]

/-- The unmapped addresses are the rest of the lower half above RAM, and the gap between Video and ROM-low. -/
theorem count_unmapped (rs : RamSize) :
    ((List.range 65536).countP fun n => select rs (BitVec.ofNat 16 n) == .none) =
      (0x8000 - rs.bytes) + (0xC000 - 0x8400) := by
  rw [← count_two_intervals (n := 65536) (by omega : 0x8000 ≤ 0x8400) (by omega) (by omega)]
  refine List.countP_congr fun n hn => ?_
  have hlt : n < 65536 := List.mem_range.1 hn
  have haddr : (BitVec.ofNat 16 n).toNat = n := (BitVec.toNat_ofNat ..).trans (Nat.mod_eq_of_lt hlt)
  rw [beq_iff_eq, select_eq_none, unmapped_def, decide_eq_true_eq, haddr]
  omega

/-- Settles O8, by the two gaps of the address space. -/
theorem unmappedAddressesAreCounted : Obligations.UnmappedAddressesAreCounted := by
  intro rs
  rw [count_unmapped]
  cases rs <;> rfl

/-! ### READ and WRITE, region by region (R35, R39, R50) -/

theorem execRead_of_rom {a : Addr} {k : Nat} {s : State} (h : select s.ramSize a = .rom k) :
    execRead a s = .next (s.closeWindow.respond (.byte (s.romAt k))) := by
  simp only [execRead, h]

theorem execRead_of_none {a : Addr} {s : State} (h : select s.ramSize a = .none) :
    execRead a s = .next (s.closeWindow.respond (.byte s.params.unmappedRead)) := by
  simp only [execRead, h]

theorem execWrite_of_rom {a : Addr} {k : Nat} {s : State} (v : Byte) (h : select s.ramSize a = .rom k) :
    execWrite a v s = .next (s.closeWindow.respond .none) := by
  simp only [execWrite, h]

theorem execWrite_of_none {a : Addr} {s : State} (v : Byte) (h : select s.ramSize a = .none) :
    execWrite a v s = .next (s.closeWindow.respond .none) := by
  simp only [execWrite, h]

/-- A WRITE to RAM stores one byte, keeps the RAM size and keeps the block in form. -/
theorem execWrite_ram {a : Addr} {s : State} (hs : s.Inv) (ha : a.toNat < s.ramSize.bytes) (v : Byte) :
    ∃ t, execWrite a v s = .next t ∧ t.Inv ∧ t.ramSize = s.ramSize ∧
      ∀ x, t.ramAt x = if x = a.toNat then v else s.ramAt x := by
  have hw := execWrite_of_ram v (select_eq_ram.2 ⟨rfl, ha⟩)
  exact ⟨_, hw, exec_inv (i := .write a v) hs hw, rfl,
    fun x => ramAt_writeRam (s := s.closeWindow) hs.ram_wf a.toNat x v⟩

/-- Settles O18: the decoder's answer for the two windows, and the meaning of READ and WRITE there. -/
theorem romIsSeenThroughTwoWindows : Obligations.RomIsSeenThroughTwoWindows := by
  intro s a
  refine ⟨fun k hk ha => ?_, fun k hk ha => ?_, fun k h => ?_, fun v ha => ?_⟩
  · have hsel : select s.ramSize a = .rom k := select_eq_rom_iff_window.2 (by omega)
    exact ⟨hsel, execRead_of_rom hsel⟩
  · have hsel : select s.ramSize a = .rom (10240 + k) := select_eq_rom_iff_window.2 (by omega)
    exact ⟨hsel, execRead_of_rom hsel⟩
  · have := select_eq_rom_iff_window.1 h
    omega
  · obtain ⟨hlo, hhi⟩ | hhigh := ha
    · exact execWrite_of_rom v (select_eq_rom_iff_window.2 (.inl ⟨hlo, hhi, rfl⟩))
    · exact execWrite_of_rom v (select_eq_rom_iff_window.2 (.inr ⟨hhigh, rfl⟩))

/-- Settles O20: a READ that sends no event leaves everything it answers from as it was. -/
theorem unforwardedReadIsIdempotent : Obligations.UnforwardedReadIsIdempotent := by
  intro a s t hvideo hio h
  cases exec_effect h with
  | readRam hsel => exact execRead_of_ram hsel
  | readRom hsel => exact execRead_of_rom hsel
  | readUnmapped hsel => exact execRead_of_none hsel
  | readVideo hsel =>
    have := select_eq_video.1 hsel
    omega
  | readIo hsel =>
    have := select_eq_io.1 hsel
    omega
  | presented hi => cases hi

/-! ### Runs of operations (R51) -/

/-- What every operation of a run keeps, the run keeps. -/
theorem execAll_induction {P : State → Prop} {is : List Instr} {s t : State}
    (hstep : ∀ i ∈ is, ∀ u v, P u → exec i u = .next v → P v) (hs : P s) (h : execAll is s = .next t) : P t := by
  induction is generalizing s with
  | nil => cases h; exact hs
  | cons i is ih =>
    simp only [execAll] at h
    split at h
    · rename_i u hu
      exact ih (fun j hj => hstep j (List.mem_cons_of_mem i hj)) (hstep i List.mem_cons_self s u hs hu) h
    · cases h
    · cases h

/-- A run changes no open value. -/
theorem execAll_params {is : List Instr} {s t : State} (h : execAll is s = .next t) : t.params = s.params :=
  execAll_induction (P := fun u => u.params = s.params)
    (fun _ _ _ _ hu hx => (exec_keeps_references hx).2.2.trans hu) rfl h

/-- Settles O19: the sentinel is an open value, which no run changes. -/
theorem unmappedAddressesReadTheSentinel : Obligations.UnmappedAddressesReadTheSentinel := by
  refine fun s a => ⟨select_eq_none, fun ha v => execWrite_of_none v (select_eq_none.2 ha), fun is t b h hb => ?_⟩
  rw [← execAll_params h]
  exact execRead_of_none (select_eq_none.2 hb)

/-- An operation that cannot change the RAM byte at an address keeps it and the RAM size (20_memory.md R51(a)). -/
theorem exec_keeps_ram_byte {a : Addr} {i : Instr} {s t : State} (hi : leavesRamByte a i = true)
    (h : exec i s = .next t) : t.ramSize = s.ramSize ∧ t.ramAt a.toNat = s.ramAt a.toNat := by
  cases exec_effect h with
  | @writeRam b v _ hsel =>
    obtain ⟨rfl, -⟩ := select_eq_ram.1 hsel
    have hne : a.toNat ≠ b.toNat := fun he => of_decide_eq_true hi (BitVec.eq_of_toNat_eq he.symm)
    exact ⟨rfl, read_write_other s.ram v hne⟩
  | reset | resize | restore => cases hi
  | _ => exact ⟨rfl, rfl⟩

/-- Settles O41: the WRITE stores the byte, and each operation of the run keeps it. -/
theorem ramReadAnswersLatestWrite : Obligations.RamReadAnswersLatestWrite := by
  intro a v is s s₁ t hs ha hw hleaves h
  obtain ⟨s', hs', -, hsize, hram⟩ := execWrite_ram hs ha v
  cases hs'.symm.trans hw
  obtain ⟨hta, htv⟩ : a.toNat < t.ramSize.bytes ∧ t.ramAt a.toNat = v := by
    refine execAll_induction (P := fun u => a.toNat < u.ramSize.bytes ∧ u.ramAt a.toNat = v) ?_
      ⟨hsize ▸ ha, (hram _).trans (if_pos rfl)⟩ h
    rintro i hi u w ⟨hua, huv⟩ hx
    obtain ⟨hsize, hbyte⟩ := exec_keeps_ram_byte (hleaves i hi) hx
    exact ⟨hsize ▸ hua, hbyte.trans huv⟩
  exact htv ▸ read_answers_ram_byte hta

/-- An operation that is no LOADROM keeps every ROM byte (10_state.md R20). -/
theorem exec_keeps_rom_byte {i : Instr} {s t : State} (hi : isLoadRom i = false) (h : exec i s = .next t) (k : Nat) :
    t.romAt k = s.romAt k :=
  romAt_congr (onlyLoadRomChangesRom i s t hi h) (exec_keeps_references h).2.2 k

/-- Settles O42: each operation of the run keeps the byte. -/
theorem romReadAnswersLatestLoad : Obligations.RomReadAnswersLatestLoad := by
  intro a k is s t hk ha hload h
  have hbyte : t.romAt k = s.romAt k := execAll_induction (P := fun u => u.romAt k = s.romAt k)
    (fun i hi _ _ hu hx => (exec_keeps_rom_byte (hload i hi) hx k).trans hu) rfl h
  exact hbyte ▸ ⟨_, execRead_of_rom (select_eq_rom.2 ⟨hk, ha⟩), rfl⟩

/-! ### Forwarded events in a run (R51(d)) -/

/-- The event an access forwards, by the decoder's answer to its address: `toVideo` and `toIo` are the messages for an
offset of the Video and of the I/O window. -/
def forwardedEvent (s : State) (toVideo : Nat → VideoMsg) (toIo : Nat → IoMsg) : Select → Option Event
  | .video off => some (.video s.video (toVideo off))
  | .io off => some (.io s.io (toIo off))
  | .ram _ => none
  | .rom _ => none
  | .none => none

/-- The windows of `accessEvent` are those the decoder selects the collaborators for. -/
theorem windowEvent_eq_forwardedEvent (s : State) (rs : RamSize) (a : Addr) (toVideo : Nat → VideoMsg)
    (toIo : Nat → IoMsg) :
    (if 0x8000 ≤ a.toNat ∧ a.toNat ≤ 0x83FF then some (Event.video s.video (toVideo (a.toNat - 0x8000)))
    else if 0xE800 ≤ a.toNat ∧ a.toNat ≤ 0xEFFF then some (.io s.io (toIo (a.toNat - 0xE800)))
    else none) = forwardedEvent s toVideo toIo (select rs a) := by
  have hbytes := bytes_le rs
  cases h : select rs a with
  | ram i =>
    have := select_eq_ram.1 h
    rw [if_neg (by omega), if_neg (by omega), forwardedEvent]
  | rom k =>
    have := select_eq_rom_iff_window.1 h
    rw [if_neg (by omega), if_neg (by omega), forwardedEvent]
  | video off =>
    obtain ⟨hlo, hhi, hoff⟩ := select_eq_video.1 h
    rw [if_pos ⟨hlo, hhi⟩, forwardedEvent, hoff]
  | io off =>
    obtain ⟨hlo, hhi, hoff⟩ := select_eq_io.1 h
    rw [if_neg (by omega), if_pos ⟨hlo, hhi⟩, forwardedEvent, hoff]
  | none =>
    have := (unmapped_def rs a).1 (select_eq_none.1 h)
    rw [if_neg (by omega), if_neg (by omega), forwardedEvent]

theorem accessEvent_read (s : State) (a : Addr) :
    accessEvent s (.read a) = forwardedEvent s .read .read (select s.ramSize a) :=
  windowEvent_eq_forwardedEvent s s.ramSize a .read .read

theorem accessEvent_write (s : State) (a : Addr) (v : Byte) :
    accessEvent s (.write a v) = forwardedEvent s (.write · v) (.write · v) (select s.ramSize a) :=
  windowEvent_eq_forwardedEvent s s.ramSize a (.write · v) (.write · v)

/-- The event of an access depends on the two references only. -/
theorem accessEvent_congr {s t : State} (hv : t.video = s.video) (hio : t.io = s.io) :
    accessEvent t = accessEvent s := by
  funext i
  cases i <;> simp only [accessEvent, hv, hio]

/-- A READ or a WRITE completes, and adds its event to the trace if it is forwarded. -/
theorem exec_access {i : Instr} (hi : isAccess i = true) (s : State) :
    ∃ t, exec i s = .next t ∧ t.trace = s.trace ++ (accessEvent s i).toList := by
  cases i with
  | read a =>
    obtain ⟨t, ht, hc⟩ := execRead_cases a s
    refine ⟨t, ht, ?_⟩
    rw [accessEvent_read]
    obtain ⟨i, h, rfl⟩ | ⟨k, h, rfl⟩ | ⟨off, h, rfl⟩ | ⟨off, h, rfl⟩ | ⟨h, rfl⟩ := hc <;> simp [h, forwardedEvent]
  | write a v =>
    obtain ⟨t, ht, hc⟩ := execWrite_cases a v s
    refine ⟨t, ht, ?_⟩
    rw [accessEvent_write]
    obtain ⟨i, h, rfl⟩ | ⟨⟨k, h⟩ | h, rfl⟩ | ⟨off, h, rfl⟩ | ⟨off, h, rfl⟩ := hc <;> simp [h, forwardedEvent]
  | _ => cases hi

/-- Settles O43, by induction on the run: the references, and so the events, are those of its first state. -/
theorem accessEventsAppearInIssueOrder : Obligations.AccessEventsAppearInIssueOrder := by
  intro is
  induction is with
  | nil => exact fun s _ => ⟨s, rfl, (List.append_nil _).symm⟩
  | cons i is ih =>
    intro s hacc
    obtain ⟨u, hu, hutrace⟩ := exec_access (hacc i List.mem_cons_self) s
    obtain ⟨t, ht, httrace⟩ := ih u fun j hj => hacc j (List.mem_cons_of_mem i hj)
    obtain ⟨hv, hio, -⟩ := exec_keeps_references hu
    refine ⟨t, by simp only [execAll, hu, ht], ?_⟩
    rw [httrace, hutrace, accessEvent_congr hv hio, List.append_assoc, List.filterMap_cons]
    cases accessEvent s i <;> rfl

/-! ### Word access (R46) -/

/-- In RAM, MemRead(a, 2) answers the two bytes, low byte first. -/
theorem memRead2_of_ram {a b : Addr} {s : State} (hab : a + 1#16 = b) (ha : a.toNat < s.ramSize.bytes)
    (hb : b.toNat < s.ramSize.bytes) : ∃ u, memRead2 a s = some (s.ramAt b.toNat ++ s.ramAt a.toNat, u) := by
  have hlo := execRead_of_ram (s := s) (select_eq_ram.2 ⟨rfl, ha⟩)
  have hhi := execRead_of_ram (s := s.closeWindow.respond (.byte (s.ramAt a.toNat))) (select_eq_ram.2 ⟨rfl, hb⟩)
  simp only [memRead2, hab, hlo, hhi]
  exact ⟨_, rfl⟩

/-- Settles O21: the two WRITEs store the two halves at different addresses, and the two READs find them. -/
theorem wordWrittenIsReadBack : Obligations.WordWrittenIsReadBack := by
  intro a w s hs ha
  have hbytes := bytes_le s.ramSize
  obtain ⟨b, hb⟩ : ∃ b, a + 1#16 = b := ⟨_, rfl⟩
  have hbn : b.toNat = a.toNat + 1 := by
    rw [← hb, BitVec.toNat_add]
    exact Nat.mod_eq_of_lt (by simp; omega)
  obtain ⟨s₁, h₁, hs₁, hsize₁, hram₁⟩ := execWrite_ram hs (Nat.lt_of_succ_lt ha) (w.extractLsb' 0 8)
  obtain ⟨t, h₂, -, hsize₂, hram₂⟩ := execWrite_ram (a := b) hs₁ (by rwa [hsize₁, hbn]) (w.extractLsb' 8 8)
  have hsize : t.ramSize = s.ramSize := hsize₂.trans hsize₁
  have hlo : t.ramAt a.toNat = w.extractLsb' 0 8 := by
    rw [hram₂, if_neg (by omega), hram₁, if_pos rfl]
  have hhi : t.ramAt (a.toNat + 1) = w.extractLsb' 8 8 := by
    rw [hram₂, if_pos hbn.symm]
  have hword : w.extractLsb' 8 8 ++ w.extractLsb' 0 8 = w :=
    (BitVec.extractLsb'_append_extractLsb'_eq_extractLsb' rfl).trans BitVec.extractLsb'_eq_self
  refine ⟨t, by simp only [memWrite2, h₁, hb, h₂], hlo, hhi, ?_⟩
  obtain ⟨u, hu⟩ := memRead2_of_ram hb (s := t) (by rw [hsize]; omega) (by rwa [hsize, hbn])
  exact ⟨u, by rw [hu, hbn, hhi, hlo, hword]⟩

/-! ### A single step -/

theorem step_of_pending {s : State} {e : PortEvent} {rest : List PortEvent} (h : s.pending = e :: rest) :
    step s = serve e (s.taking rest) := by
  simp only [step, h]

theorem serve_request_of_live {s : State} (h : s.live = true) (r : Request) :
    serve (.request r) s = serveRequest r s := if_pos h

theorem serveRequest_of_decode {s : State} {r : Request} {i : Instr} (h : decode s.ramSize r = .ok i) :
    serveRequest r s = exec i s := by
  simp only [serveRequest, h]

/-- Settles O50: the event is taken, found to be a request of a live block, and decoded. -/
theorem stepRunsDecodedInstruction : Obligations.StepRunsDecodedInstruction := by
  intro s r rest i hlive hpending hdecode
  calc step s = serve (.request r) (s.taking rest) := step_of_pending hpending
    _ = serveRequest r (s.taking rest) := serve_request_of_live (s := s.taking rest) hlive r
    _ = exec i (s.taking rest) := serveRequest_of_decode hdecode

end Sys2Proof.Machine

/-! # Encoding (30_encoding.md)

The decoder and the encoder are one relation: a request decodes to an instruction exactly if the encoder gives it for that
instruction and the row is in force (`decode_eq_ok_iff`), proved for operation words by the code in their top bits and for
addresses by the ranges of the rows. Then what the rows answer, and the reserved words. -/

namespace Sys2Proof

/-! ### Fixed top bits above a free field -/

section
variable {k m : Nat} {p : BitVec k} {x : BitVec m} {a : BitVec (k + m)}

/-- Fixed top bits are those of the addresses of one range. -/
theorem topBits_eq_iff :
    a.extractLsb' m k = p ↔ p.toNat * 2 ^ m ≤ a.toNat ∧ a.toNat < (p.toNat + 1) * 2 ^ m := by
  have hpos : 0 < 2 ^ m := Nat.two_pow_pos m
  have htop : a.toNat / 2 ^ m < 2 ^ k :=
    Nat.div_lt_of_lt_mul (by rw [← Nat.pow_add, Nat.add_comm m]; exact a.isLt)
  rw [← BitVec.toNat_inj, BitVec.extractLsb'_toNat, Nat.shiftRight_eq_div_pow, Nat.mod_eq_of_lt htop,
    Nat.div_eq_iff hpos, Nat.succ_mul]
  omega

/-- A pattern reads back as its fixed bits and its free field. -/
theorem pattern_eq_iff : p ++ x = a ↔ a.extractLsb' m k = p ∧ a.extractLsb' 0 m = x := by
  constructor
  · rintro rfl
    exact ⟨BitVec.extractLsb'_append_eq_left, BitVec.extractLsb'_append_eq_right⟩
  · rintro ⟨rfl, rfl⟩
    exact BitVec.extractLsb'_append_extractLsb'

/-- A pattern's free field counts up from the first address of its range. -/
theorem toNat_pattern : (p ++ x).toNat = p.toNat * 2 ^ m + x.toNat := by
  rw [BitVec.toNat_append, ← Nat.shiftLeft_add_eq_or_of_lt x.isLt, Nat.shiftLeft_eq]

end

/-! ### Operation words (R66 to R68) -/

/-- The eight values of the field `op`. -/
theorem op_cases (op : BitVec 3) :
    op = 0#3 ∨ op = 1#3 ∨ op = 2#3 ∨ op = 3#3 ∨ op = 4#3 ∨ op = 5#3 ∨ op = 6#3 ∨ op = 7#3 := by
  decide +revert

theorem guardZero_eq_ok {zero : Bool} {r : Except DecodeError Instr} {i : Instr} :
    guardZero zero r = .ok i ↔ zero = true ∧ r = .ok i := by
  cases zero <;> simp [guardZero]

theorem plainOp_eq_ok {j i : Instr} {side : SideBand} : plainOp j side = .ok i ↔ side = .none ∧ j = i := by
  cases side <;> simp [plainOp]

/-- A word is put together from its fields again. -/
theorem opWord_eq {w : BitVec 32} {op : BitVec 3} {arg : BitVec 16} {data : BitVec 8} (hop : opField w = op)
    (hrsv : rsvField w = 0#5) (harg : arg16Field w = arg) (hdata : data8Field w = data) : opWord op arg data = w := by
  subst hop harg hdata
  calc opWord (opField w) (arg16Field w) (data8Field w)
      = opField w ++ rsvField w ++ arg16Field w ++ data8Field w := by rw [hrsv]; rfl
    _ = w.extractLsb' 24 8 ++ arg16Field w ++ data8Field w :=
        congrArg (· ++ arg16Field w ++ data8Field w) (BitVec.extractLsb'_append_extractLsb'_eq_extractLsb' rfl)
    _ = w.extractLsb' 8 24 ++ data8Field w :=
        congrArg (· ++ data8Field w) (BitVec.extractLsb'_append_extractLsb'_eq_extractLsb' rfl)
    _ = w.extractLsb' 0 32 := BitVec.extractLsb'_append_extractLsb'_eq_extractLsb' rfl
    _ = w := BitVec.extractLsb'_eq_self

/-- What a word decodes to is encoded by that word: each operation keeps the fields it uses, and the others are zero. -/
theorem encode_of_decodeOpw {w : BitVec 32} {side : SideBand} {i : Instr} (h : decodeOpw w side = .ok i) :
    encode i = .opw w side := by
  rcases op_cases (opField w) with hop | hop | hop | hop | hop | hop | hop | hop <;>
    simp only [decodeOpw, hop, BitVec.reduceToNat, guardZero_eq_ok, plainOp_eq_ok, Bool.and_eq_true, beq_iff_eq] at h
  · obtain ⟨⟨hrsv, hdata⟩, rfl, rfl⟩ := h
    exact congrArg (Request.opw · _) (opWord_eq hop hrsv rfl hdata)
  · obtain ⟨hrsv, rfl, rfl⟩ := h
    exact congrArg (Request.opw · _) (opWord_eq hop hrsv rfl rfl)
  · obtain ⟨⟨⟨hrsv, hdata⟩, harg⟩, rfl, rfl⟩ := h
    exact congrArg (Request.opw · _) (opWord_eq hop hrsv harg hdata)
  · obtain ⟨⟨hrsv, hdata⟩, rfl, rfl⟩ := h
    exact congrArg (Request.opw · _) (opWord_eq hop hrsv rfl hdata)
  · obtain ⟨⟨hrsv, hdata⟩, hside⟩ := h
    cases side <;> cases hside
    exact congrArg (Request.opw · _) (opWord_eq hop hrsv rfl hdata)
  · obtain ⟨⟨⟨hrsv, hdata⟩, harg⟩, rfl, rfl⟩ := h
    exact congrArg (Request.opw · _) (opWord_eq hop hrsv harg hdata)
  · obtain ⟨⟨⟨hrsv, hdata⟩, harg⟩, hside⟩ := h
    cases side <;> cases hside
    exact congrArg (Request.opw · _) (opWord_eq hop hrsv harg hdata)
  · cases side <;> cases h
    exact congrArg (Request.opw · _) (pattern_eq_iff.2 ⟨hop, rfl⟩)

/-- The word of an instruction decodes to it. -/
theorem decodeOpw_of_encode {w : BitVec 32} {side : SideBand} {i : Instr} (h : encode i = .opw w side) :
    decodeOpw w side = .ok i := by
  cases i with
  | read | write | reset | resize | loadRom | save | restore =>
    cases h
    simp [decodeOpw, guardZero, plainOp]
  | reservedOp7 x =>
    obtain ⟨hop, hx⟩ := pattern_eq_iff.1 (Request.opw.inj h).1
    cases h
    simp [decodeOpw, opField, hop, hx]
  | _ => cases h

/-- The operations are in force at every RAM size. -/
theorem activeAt_of_encode_opw {w : BitVec 32} {side : SideBand} {i : Instr} (rs : RamSize)
    (h : encode i = .opw w side) : i.activeAt rs = true := by
  cases i with
  | read | write | reset | resize | loadRom | save | restore | reservedOp7 => rfl
  | _ => cases h

/-! ### Addresses (R61 to R65) -/

/-- The rows with their ranges in place of their bit patterns. -/
theorem decodeAddr16_def (rs : RamSize) (a : BitVec 16) : decodeAddr16 rs a =
    if rs = .k8 ∧ a.toNat < 0x2000 then .selRam8k (a.extractLsb' 0 13)
    else if rs = .k16 ∧ a.toNat < 0x4000 then .selRam16k (a.extractLsb' 0 14)
    else if rs = .k32 ∧ a.toNat < 0x8000 then .selRam32k (a.extractLsb' 0 15)
    else if 0xC000 ≤ a.toNat ∧ a.toNat < 0xE000 then .selRomLowA (a.extractLsb' 0 13)
    else if 0xE000 ≤ a.toNat ∧ a.toNat < 0xE800 then .selRomLowB (a.extractLsb' 0 11)
    else if 0xF000 ≤ a.toNat ∧ a.toNat < 0x10000 then .selRomHigh (a.extractLsb' 0 12)
    else if 0x8000 ≤ a.toNat ∧ a.toNat < 0x8400 then .selVideo (a.extractLsb' 0 10)
    else if 0xE800 ≤ a.toNat ∧ a.toNat < 0xF000 then .selIo (a.extractLsb' 0 11)
    else if rs = .k8 ∧ 0x2000 ≤ a.toNat ∧ a.toNat < 0x4000 then .selNone2000 (a.extractLsb' 0 13)
    else if rs ≠ .k32 ∧ 0x4000 ≤ a.toNat ∧ a.toNat < 0x8000 then .selNone4000 (a.extractLsb' 0 14)
    else if 0x8400 ≤ a.toNat ∧ a.toNat < 0x8800 then .selNone8400 (a.extractLsb' 0 10)
    else if 0x8800 ≤ a.toNat ∧ a.toNat < 0x9000 then .selNone8800 (a.extractLsb' 0 11)
    else if 0x9000 ≤ a.toNat ∧ a.toNat < 0xA000 then .selNone9000 (a.extractLsb' 0 12)
    else .selNoneA000 (a.extractLsb' 0 13) := by
  simp only [decodeAddr16, topBits_eq_iff (k := 1) (m := 15), topBits_eq_iff (k := 2) (m := 14),
    topBits_eq_iff (k := 3) (m := 13), topBits_eq_iff (k := 4) (m := 12), topBits_eq_iff (k := 5) (m := 11),
    topBits_eq_iff (k := 6) (m := 10)]
  simp

/-- An address fits a row: the row is in force, and the address is what the encoder gives for it (30_encoding.md R61). -/
def Fits (rs : RamSize) (a : BitVec 16) (i : Instr) : Prop := encode i = .addr16 a ∧ i.activeAt rs = true

/-- An address fits the row it is read as. The last row has no test: what the others leave over is its range. -/
theorem fits_decodeAddr16 (rs : RamSize) (a : BitVec 16) : Fits rs a (decodeAddr16 rs a) := by
  have hsize : rs = .k8 ∨ rs = .k16 ∨ rs = .k32 := by cases rs <;> simp
  have hlt := addr_toNat_lt a
  rw [decodeAddr16_def]
  repeat' refine iteInduction (motive := Fits rs a) (fun _ => ?_) (fun _ => ?_)
  all_goals
    refine ⟨congrArg Request.addr16 (pattern_eq_iff.2 ⟨topBits_eq_iff.2 ?_, rfl⟩), ?_⟩
    · grind
    · grind [Instr.activeAt]

/-- An address is read as the row it fits: the row's own test holds in its range, and none of those tried before does. -/
theorem decodeAddr16_of_fits {rs : RamSize} {a : BitVec 16} {i : Instr} (h : Fits rs a i) :
    decodeAddr16 rs a = i := by
  obtain ⟨henc, hact⟩ := h
  cases i with
  | read | write | reset | resize | loadRom | save | restore | reservedOp7 => cases henc
  | selRam8k x | selRam16k x | selRam32k x | selRomLowA x | selRomLowB x | selRomHigh x | selVideo x | selIo x
  | selNone2000 x | selNone4000 x | selNone8400 x | selNone8800 x | selNone9000 x | selNoneA000 x =>
    obtain ⟨htop, rfl⟩ := pattern_eq_iff.1 (Request.addr16.inj henc)
    have hrange := topBits_eq_iff.1 htop
    grind [decodeAddr16_def, Instr.activeAt]

/-! ### Decoder and encoder as one relation -/

/-- A request decodes to an instruction exactly if the encoder gives it for that instruction and the row is in force. -/
theorem decode_eq_ok_iff {rs : RamSize} {r : Request} {i : Instr} :
    decode rs r = .ok i ↔ encode i = r ∧ i.activeAt rs = true := by
  cases r with
  | opw w side =>
    exact ⟨fun h => ⟨encode_of_decodeOpw h, activeAt_of_encode_opw rs (encode_of_decodeOpw h)⟩,
      fun h => decodeOpw_of_encode h.1⟩
  | addr16 a =>
    exact ⟨fun h => Except.ok.inj h ▸ fits_decodeAddr16 rs a, fun h => congrArg Except.ok (decodeAddr16_of_fits h)⟩

/-- Settles O1: the one relation, read from right to left. -/
theorem decodeOfEncodeIsIdentity : Obligations.DecodeOfEncodeIsIdentity := fun _ _ hact =>
  decode_eq_ok_iff.2 ⟨rfl, hact⟩

/-- Settles O2: the one relation, read from left to right. -/
theorem encodeOfDecodeIsIdentity : Obligations.EncodeOfDecodeIsIdentity := fun _ _ _ h => decode_eq_ok_iff.1 h

/-- Settles O3: the row is the one the address is read as. -/
theorem everyAddressFitsExactlyOneRow : Obligations.EveryAddressFitsExactlyOneRow := fun rs a =>
  have ⟨henc, hact⟩ := fits_decodeAddr16 rs a
  ⟨decodeAddr16 rs a, hact, henc, fun _ hj hej => (decodeAddr16_of_fits ⟨hej, hj⟩).symm⟩

end Sys2Proof

namespace Sys2Proof.Machine

/-! ### What an address presented alone is answered (R62 to R65) -/

/-- A row in force answers what its column of the table says. -/
theorem presentAddress_of_inForce {c : Bool} (hc : c = true) (row : Select) (a : Addr) (s : State) :
    presentAddress c row a s = .next (s.respond (.selected row)) := by
  simp only [presentAddress, hc, if_true]

/-- A row that says in force what the ranges say answers what the ranges say, in force or not. -/
theorem presentAddress_eq_select {c : Bool} {row : Select} {a : Addr} {s : State}
    (h : c = true → select s.ramSize a = row) :
    presentAddress c row a s = .next (s.respond (.selected (select s.ramSize a))) := by
  cases c with
  | false => rfl
  | true => rw [presentAddress_of_inForce rfl, h rfl]

/-- Settles O11: at its RAM size each row is in force. -/
theorem ramRowsSelectRam : Obligations.RamRowsSelectRam :=
  ⟨fun _ _ h => presentAddress_of_inForce (beq_iff_eq.2 h) _ _ _,
    fun _ _ h => presentAddress_of_inForce (beq_iff_eq.2 h) _ _ _,
    fun _ _ h => presentAddress_of_inForce (beq_iff_eq.2 h) _ _ _⟩

/-- Settles O12: the rows are in force in every state. -/
theorem romRowsSelectRom : Obligations.RomRowsSelectRom :=
  ⟨fun _ _ => presentAddress_of_inForce rfl _ _ _, fun _ _ => presentAddress_of_inForce rfl _ _ _,
    fun _ _ => presentAddress_of_inForce rfl _ _ _⟩

/-- Settles O13: the rows are in force in every state. -/
theorem deviceRowsSelectTheirWindow : Obligations.DeviceRowsSelectTheirWindow :=
  ⟨fun _ _ => presentAddress_of_inForce rfl _ _ _, fun _ _ => presentAddress_of_inForce rfl _ _ _⟩

/-- Settles O14: at its RAM sizes each row is in force. -/
theorem unmappedRowsSelectNothing : Obligations.UnmappedRowsSelectNothing := by
  refine ⟨fun _ _ h => presentAddress_of_inForce (beq_iff_eq.2 h) _ _ _, fun _ s h => ?_,
    fun _ _ => presentAddress_of_inForce rfl _ _ _, fun _ _ => presentAddress_of_inForce rfl _ _ _,
    fun _ _ => presentAddress_of_inForce rfl _ _ _, fun _ _ => presentAddress_of_inForce rfl _ _ _⟩
  have hactive : (s.ramSize != .k32) = true := by rcases h with h | h <;> rw [h] <;> rfl
  exact presentAddress_of_inForce hactive _ _ _

/-- Below 32768 bytes RAM ends at 0x4000 or before. -/
theorem bytes_le_of_ne_k32 {rs : RamSize} (h : rs ≠ .k32) : rs.bytes ≤ 0x4000 := by
  cases rs with
  | k8 | k16 => decide
  | k32 => exact absurd rfl h

/-- Settles O15: in its range each row says what the range tests say there. -/
theorem patternsAgreeWithRanges : Obligations.PatternsAgreeWithRanges := by
  intro i a s h
  cases i with
  | read | write | reset | resize | loadRom | save | restore | reservedOp7 => cases h
  | selRam8k x | selRam16k x | selRam32k x =>
    cases h
    refine presentAddress_eq_select fun hact => select_eq_ram.2 ?_
    rw [toNat_pattern, beq_iff_eq.1 hact]
    simpa using x.isLt
  | selRomLowA x =>
    cases h
    refine presentAddress_eq_select fun _ => select_eq_rom_iff_window.2 (.inl ?_)
    rw [toNat_pattern]
    bv_omega
  | selRomLowB x =>
    cases h
    refine presentAddress_eq_select fun _ => select_eq_rom_iff_window.2 (.inl ?_)
    rw [toNat_pattern, Config.romLowBase]
    bv_omega
  | selRomHigh x =>
    cases h
    refine presentAddress_eq_select fun _ => select_eq_rom_iff_window.2 (.inr ?_)
    rw [toNat_pattern, show Config.romLowSize = 0x2800 from rfl]
    bv_omega
  | selVideo x =>
    cases h
    refine presentAddress_eq_select fun _ => select_eq_video.2 ?_
    rw [toNat_pattern]
    bv_omega
  | selIo x =>
    cases h
    refine presentAddress_eq_select fun _ => select_eq_io.2 ?_
    rw [toNat_pattern]
    bv_omega
  | selNone2000 x =>
    cases h
    refine presentAddress_eq_select fun hact => select_eq_none.2 ?_
    rw [unmapped_def, toNat_pattern, beq_iff_eq.1 hact]
    have := x.isLt
    simp
    omega
  | selNone4000 x =>
    cases h
    refine presentAddress_eq_select fun hact => select_eq_none.2 ?_
    have hbytes := bytes_le_of_ne_k32 (bne_iff_ne.1 hact)
    rw [unmapped_def, toNat_pattern]
    bv_omega
  | selNone8400 x | selNone8800 x | selNone9000 x | selNoneA000 x =>
    cases h
    refine presentAddress_eq_select fun _ => select_eq_none.2 ?_
    rw [unmapped_def, toNat_pattern]
    bv_omega

/-! ### Reserved words (R68) -/

/-- Settles O6: the row has no other meaning. -/
theorem reservedCodeIsRefused : Obligations.ReservedCodeIsRefused := fun _ _ => rfl

theorem guardZero_of_false {zero : Bool} (h : zero = false) (r : Except DecodeError Instr) :
    guardZero zero r = .error .reservedEncoding := by
  simp [guardZero, h]

/-- A reserved word is rejected by the decoder or read as the reserved row. -/
theorem decodeOpw_of_reservedWord {w : BitVec 32} (h : reservedWord w) (side : SideBand) :
    decodeOpw w side = .error .reservedEncoding ∨ ∃ x, decodeOpw w side = .ok (.reservedOp7 x) := by
  rcases op_cases (opField w) with hop | hop | hop | hop | hop | hop | hop | hop
  case inr.inr.inr.inr.inr.inr.inr =>
    simp only [decodeOpw, hop, BitVec.reduceToNat]
    cases side with
    | none => exact .inr ⟨_, rfl⟩
    | bytes | record => exact .inl rfl
  all_goals
    simp only [decodeOpw, hop, BitVec.reduceToNat]
    exact .inl (guardZero_of_false (by grind [reservedWord]) _)

theorem serveRequest_of_decode_error {s : State} {r : Request} {e : DecodeError} (h : decode s.ramSize r = .error e) :
    serveRequest r s = .refused (DecodeError.refusal e) := by
  simp only [serveRequest, h]

/-- Settles O5: the decoder rejects the word, or the row it is read as is refused. -/
theorem reservedWordsAreRefused : Obligations.ReservedWordsAreRefused := by
  intro s w side rest hlive hpending hres
  rw [step_of_pending hpending, serve_request_of_live (s := s.taking rest) hlive]
  obtain hd | ⟨x, hd⟩ := decodeOpw_of_reservedWord hres side
  · exact serveRequest_of_decode_error (s := s.taking rest) (r := .opw w side) hd
  · rw [serveRequest_of_decode (s := s.taking rest) (r := .opw w side) hd]
    exact reservedCodeIsRefused x _

end Sys2Proof.Machine

/-! # READ and WRITE (40_bus_access.md)

Each of the two operations is one update of the state, written with what it answers, stores and forwards as functions of
the decoder's answer (`execRead_eq`, `execWrite_eq`); a clause of R80 to R82 then follows from what the decoder answers in
its range. -/

namespace Sys2Proof.Machine

/-! ### READ (R80, R81) -/

/-- The byte a READ answers, by the decoder's answer to its address. -/
def State.byteRead (s : State) : Select → Byte
  | .ram i => s.ramAt i
  | .rom k => s.romAt k
  | .video off => s.videoByte off
  | .io off => s.ioByte off
  | .none => s.params.unmappedRead

/-- READ as one update of the state. -/
theorem execRead_eq (a : Addr) (s : State) : execRead a s = .next
    { s with
      window := false
      response := .byte (s.byteRead (select s.ramSize a))
      trace := s.trace ++ (forwardedEvent s .read .read (select s.ramSize a)).toList } := by
  unfold execRead
  cases select s.ramSize a with
  | video off | io off => rfl
  | ram i | rom i | none =>
    simp only [forwardedEvent, Option.toList_none, List.append_nil]
    rfl

/-- Settles O16: READ is the update of `execRead_eq`, and in each range the decoder has one answer. -/
theorem readAnswersByAddress : Obligations.ReadAnswersByAddress := by
  intro a s
  refine ⟨_, execRead_eq a s, rfl, fun h => ?_, fun ⟨hlo, hhi⟩ => ?_, fun h => ?_, fun ⟨hlo, hhi⟩ => ?_,
    fun ⟨hlo, hhi⟩ => ?_, fun h => ?_⟩
  · rw [select_eq_ram.2 ⟨rfl, h⟩]
    exact ⟨rfl, List.append_nil _⟩
  · rw [select_eq_rom_iff_window.2 (.inl ⟨hlo, hhi, rfl⟩)]
    exact ⟨rfl, List.append_nil _⟩
  · rw [select_eq_rom_iff_window.2 (.inr ⟨h, rfl⟩)]
    exact ⟨rfl, List.append_nil _⟩
  · rw [select_eq_video.2 ⟨hlo, hhi, rfl⟩]
    exact ⟨rfl, rfl⟩
  · rw [select_eq_io.2 ⟨hlo, hhi, rfl⟩]
    exact ⟨rfl, rfl⟩
  · rw [select_eq_none.2 h]
    exact ⟨rfl, List.append_nil _⟩

/-! ### WRITE (R82) -/

/-- The RAM buffer a WRITE leaves, by the decoder's answer to its address. -/
def State.ramWritten (s : State) (v : Byte) : Select → Memory
  | .ram i => s.ram.write (ramBase s.params) i v
  | .rom _ => s.ram
  | .video _ => s.ram
  | .io _ => s.ram
  | .none => s.ram

/-- WRITE as one update of the state. -/
theorem execWrite_eq (a : Addr) (v : Byte) (s : State) : execWrite a v s = .next
    { s with
      window := false
      response := .none
      ram := s.ramWritten v (select s.ramSize a)
      trace := s.trace ++ (forwardedEvent s (.write · v) (.write · v) (select s.ramSize a)).toList } := by
  unfold execWrite
  cases select s.ramSize a with
  | video off | io off => rfl
  | ram i | rom i | none =>
    simp only [forwardedEvent, Option.toList_none, List.append_nil]
    rfl

/-- At or above the RAM size a WRITE leaves the RAM buffer as it was. -/
theorem ramWritten_of_bytes_le {a : Addr} {s : State} (v : Byte) (ha : s.ramSize.bytes ≤ a.toNat) :
    s.ramWritten v (select s.ramSize a) = s.ram := by
  cases h : select s.ramSize a with
  | ram i => exact absurd (select_eq_ram.1 h).2 (Nat.not_lt.2 ha)
  | rom k | video off | io off | none => rfl

/-- Settles O17: WRITE is the update of `execWrite_eq`, and in each range the decoder has one answer. -/
theorem writeActsByAddress : Obligations.WriteActsByAddress := by
  intro a v s hs
  refine ⟨rfl, _, execWrite_eq a v s, rfl, fun h => ?_, ramWritten_of_bytes_le v, fun ⟨hlo, hhi⟩ => ?_,
    fun ⟨hlo, hhi⟩ => ?_, fun h => ?_⟩
  · rw [select_eq_ram.2 ⟨rfl, h⟩]
    exact ⟨List.append_nil _, fun x => ramAt_writeRam hs.ram_wf a.toNat x v⟩
  · rw [select_eq_video.2 ⟨hlo, hhi, rfl⟩]
    rfl
  · rw [select_eq_io.2 ⟨hlo, hhi, rfl⟩]
    rfl
  · obtain ⟨hlo, hhi⟩ | hhigh | hnone := h
    · rw [select_eq_rom_iff_window.2 (.inl ⟨hlo, hhi, rfl⟩)]
      exact List.append_nil _
    · rw [select_eq_rom_iff_window.2 (.inr ⟨hhigh, rfl⟩)]
      exact List.append_nil _
    · rw [select_eq_none.2 hnone]
      exact List.append_nil _

end Sys2Proof.Machine

/-! # Host control (41_host_control.md)

RESET and RESIZE are each one update of the state (`exec_reset_eq`, `exec_resize_of_legal`); LOADROM's loop is described
by what every ROM byte reads as after it (`read_loadRomFrom`), by induction over the payload. -/

namespace Sys2Proof.Machine

/-! ### LOADROM (R96 to R99) -/

section
variable {base : Nat → Byte}

/-- One turn of LOADROM's loop: the byte goes to the one ROM offset seen at its bus address, or nowhere (R96). -/
theorem loadRomFrom_cons {m : Memory} (hm : m.wf base Config.romSize = true) (t : Nat) (v : Byte) (vs : List Byte) :
    ∃ m' : Memory, loadRomFrom base m t (v :: vs) = loadRomFrom base m' (t + 1) vs ∧
      m'.wf base Config.romSize = true ∧
      ∀ k, k < Config.romSize → m'.read base k = if romAddress k = t then v else m.read base k := by
  cases htarget : romTarget t with
  | none =>
    refine ⟨m, by rw [loadRomFrom, htarget], hm, fun k hk => (if_neg fun hkt => ?_).symm⟩
    exact absurd (htarget.symm.trans (romTarget_eq_some.2 ⟨hk, hkt.symm⟩)) nofun
  | some j =>
    obtain ⟨hj, hjt⟩ := romTarget_eq_some.1 htarget
    refine ⟨m.write base j v, by rw [loadRomFrom, htarget], wf_write v hm hj, fun k hk => ?_⟩
    have hkj : romAddress k = t ↔ k = j := by
      refine ⟨fun hkt => ?_, fun h => h ▸ hjt.symm⟩
      exact Option.some.inj ((romTarget_eq_some.2 ⟨hk, hkt.symm⟩).symm.trans htarget)
    rw [read_write hm, if_congr hkj rfl rfl]

/-- A ROM byte after LOADROM's loop: the payload byte for its bus address, if the payload has one (R96, R97). -/
theorem read_loadRomFrom {m : Memory} (hm : m.wf base Config.romSize = true) (t : Nat) (vs : List Byte) {k : Nat}
    (hk : k < Config.romSize) : (loadRomFrom base m t vs).read base k =
      if t ≤ romAddress k then vs.getD (romAddress k - t) (m.read base k) else m.read base k := by
  induction vs generalizing m t with
  | nil => exact (ite_self _).symm
  | cons v vs ih =>
    obtain ⟨m', hloop, hm', hread⟩ := loadRomFrom_cons hm t v vs
    rw [hloop, ih hm', hread k hk]
    rcases lt_trichotomy (romAddress k) t with hlt | heq | hgt
    · rw [if_neg (by omega), if_neg (by omega), if_neg (by omega)]
    · rw [if_neg (by omega), if_pos heq, if_pos heq.ge, heq, Nat.sub_self, List.getD_cons_zero]
    · have hsucc : romAddress k - t = romAddress k - (t + 1) + 1 := by omega
      rw [if_pos (by omega), if_neg (by omega), if_pos hgt.le, hsucc, List.getD_cons_succ]

end

/-- Settles O27: LOADROM puts the memory of its loop in the ROM buffer. -/
theorem loadRomStoresAddressLinearImage : Obligations.LoadRomStoresAddressLinearImage := fun b bytes _ hs =>
  ⟨_, rfl, rfl, fun _ hk => read_loadRomFrom hs.rom_wf b.toNat bytes hk⟩

/-- Settles O28, from O27: inside one window the offset and the bus address rise together. -/
theorem loadRomInsideOneWindowIsConsecutive : Obligations.LoadRomInsideOneWindowIsConsecutive := by
  intro b bytes s off hs hwindow
  obtain ⟨t, ht, -, hread⟩ := loadRomStoresAddressLinearImage b bytes s hs
  refine ⟨t, ht, fun i hi => ?_⟩
  have haddr : romAddress (off + i) = b.toNat + i := by
    rw [romAddress_def]
    split_ifs <;> omega
  rw [hread (off + i) (by omega), haddr, if_pos (Nat.le_add_right _ _), Nat.add_sub_cancel_left,
    List.getD_eq_getElem _ _ hi]

/-! ### RESET (R90, R91) -/

/-- RESET as one update of the state. -/
theorem exec_reset_eq (s : State) : exec .reset s = .next
    { s with
      ram := []
      window := true
      response := .none
      trace := s.trace ++ [.io s.io .reset, .video s.video .reset] } := by
  have htrace : s.trace ++ [.io s.io .reset] ++ [.video s.video .reset] =
      s.trace ++ [.io s.io .reset, .video s.video .reset] := List.append_assoc ..
  rw [← htrace]
  rfl

/-- Settles O22: with nothing listed every RAM byte is the fill byte. -/
theorem resetRefillsRam : Obligations.ResetRefillsRam := fun s =>
  ⟨_, exec_reset_eq s, fun i => ramAt_of_nothing_listed rfl i, rfl⟩

/-- Settles O23: the state a RESET leaves already holds everything but the events that the next one puts there. -/
theorem secondResetOnlySendsEvents : Obligations.SecondResetOnlySendsEvents := by
  intro s t h
  cases (exec_reset_eq s).symm.trans h
  exact exec_reset_eq _

/-! ### RESIZE (R92 to R95) -/

/-- The legal sizes, in bytes (00_scope.md R5). -/
theorem exists_bytes_eq_iff {n : Nat} : (∃ rs : RamSize, n = rs.bytes) ↔ n = 8192 ∨ n = 16384 ∨ n = 32768 := by
  constructor
  · rintro ⟨_ | _ | _, h⟩
    · exact .inl h
    · exact .inr (.inl h)
    · exact .inr (.inr h)
  · rintro (h | h | h)
    · exact ⟨.k8, h⟩
    · exact ⟨.k16, h⟩
    · exact ⟨.k32, h⟩

/-- Inside the window RESIZE to a legal size is one update of the state. -/
theorem exec_resize_of_legal {rs : RamSize} {n : BitVec 16} {s : State} (hn : n.toNat = rs.bytes)
    (hw : s.window = true) :
    exec (.resize n) s = .next { s with ramSize := rs, ram := [], response := .none } :=
  execResize_next.2 ⟨rs, ofBytes?_eq_some.2 hn, hw, rfl⟩

/-- The window is not asked for a number that is no legal size: the model tests the size first (log 10). -/
theorem exec_resize_of_illegal {n : BitVec 16} {s : State} (hn : ¬∃ rs : RamSize, n.toNat = rs.bytes) :
    exec (.resize n) s = .refused .illegalRamSize := by
  have hnone : RamSize.ofBytes? n.toNat = none :=
    Option.eq_none_iff_forall_ne_some.2 fun rs h => hn ⟨rs, ofBytes?_eq_some.1 h⟩
  simp only [exec, execResize, hnone]

theorem exec_resize_of_closed {rs : RamSize} {n : BitVec 16} {s : State} (hn : n.toNat = rs.bytes)
    (hw : s.window = false) : exec (.resize n) s = .refused .resizeOutsideWindow := by
  simp [exec, execResize, ofBytes?_eq_some.2 hn, hw]

/-- Settles O24: with nothing listed every RAM byte is the fill byte. -/
theorem resizeReinitializesRam : Obligations.ResizeReinitializesRam := fun _ _ _ hn hw =>
  ⟨_, exec_resize_of_legal hn hw, fun i => ramAt_of_nothing_listed rfl i, rfl⟩

/-- Settles O25, by whether the number is a legal size. -/
theorem resizeIsRefusedWithoutMeaning : Obligations.ResizeIsRefusedWithoutMeaning := by
  refine fun n s => ⟨fun hillegal => exec_resize_of_illegal fun hlegal => ?_, fun hlegal hw => ?_⟩
  · have := exists_bytes_eq_iff.1 hlegal
    omega
  · obtain ⟨rs, hn⟩ := exists_bytes_eq_iff.2 hlegal
    exact exec_resize_of_closed hn hw

/-- Settles O26: in form and inside the window nothing is listed in RAM, so the fill changes nothing (10_state.md R25). -/
theorem resizeToHeldSizeChangesNothing : Obligations.ResizeToHeldSizeChangesNothing := by
  intro n s hs hw hn
  rw [exec_resize_of_legal hn hw, ← hs.window_filled hw]

end Sys2Proof.Machine

/-! # SAVE and RESTORE (42_snapshot.md)

First the text form of a record: what each of its readers answers, as an `↔` (`readBytes_eq_some_iff`,
`ofText?_eq_some_iff`); then the buffer that a list of bytes builds and the list that a buffer is read as, which undo
each other (`ofBytes_toBytes`, `toBytes_ofBytes`); then the two operations. -/

namespace Sys2Proof

/-! ### The text form (R106, R107, R109) -/

/-- A text has one piece more than it has separators. -/
theorem length_splitAtSep (c : Char) (t : List Char) : (splitAtSep c t).length = t.count c + 1 := by
  induction t with
  | nil => rfl
  | cons d t ih =>
    by_cases hd : d = c
    · simp [splitAtSep, hd, ih]
    · cases hsplit : splitAtSep c t with
      | nil => simp [hsplit] at ih
      | cons w ws => simpa [splitAtSep, hd, hsplit] using ih

/-- Pieces without the separator, joined by it, split into those pieces. -/
theorem splitAtSep_joinSep {c : Char} {ws : List (List Char)} (hne : ws ≠ []) (hws : ∀ w ∈ ws, c ∉ w) :
    splitAtSep c (joinSep c ws) = ws := by
  induction ws with
  | nil => exact absurd rfl hne
  | cons w ws ih =>
    obtain ⟨hw, hrest⟩ := List.forall_mem_cons.1 hws
    cases ws with
    | nil => exact splitAtSep_of_not_mem hw
    | cons v vs => rw [joinSep, splitAtSep_append hw, ih nofun hrest]; nofun

/-- A character that is in no piece and is not the separator is not in the joined text. -/
theorem not_mem_joinSep {c d : Char} (hcd : d ≠ c) {ws : List (List Char)} (hws : ∀ w ∈ ws, d ∉ w) :
    d ∉ joinSep c ws := by
  induction ws with
  | nil => exact List.not_mem_nil
  | cons w ws ih =>
    obtain ⟨hw, hrest⟩ := List.forall_mem_cons.1 hws
    cases ws with
    | nil => exact hw
    | cons v vs => simp [joinSep, hw, hcd, ih hrest]

section
variable {h : Config.HexSpelling}

/-- The RAM elements of a text read as bytes exactly if each is a numeral of its byte. -/
theorem readBytes_eq_some_iff {ws : List (List Char)} {bs : List Byte} :
    readBytes h ws = some bs ↔ List.Forall₂ (fun w b => h.read w = some b.toNat) ws bs := by
  induction ws generalizing bs with
  | nil => simp [readBytes, eq_comm]
  | cons w ws ih =>
    constructor
    · intro hread
      rw [readBytes] at hread
      split at hread
      · rename_i k bs' hk hbs'
        split_ifs at hread with hlt
        cases hread
        have hbyte : (BitVec.ofNat Config.dataBits k).toNat = k := by rw [BitVec.toNat_ofNat, Nat.mod_eq_of_lt hlt]
        exact .cons (hbyte.symm ▸ hk) (ih.1 hbs')
      · cases hread
    · rintro (_ | ⟨hb, hbs⟩)
      simp [readBytes, hb, ih.2 hbs, byte_toNat_lt]

/-- An element that is no numeral in 0..255 is no RAM element (R109). -/
theorem readBytes_eq_none_of_mem {ws : List (List Char)} {w : List Char} (hw : w ∈ ws)
    (hbad : ∀ k, h.read w = some k → 256 ≤ k) : readBytes h ws = none := by
  refine Option.eq_none_iff_forall_ne_some.2 fun bs hread => ?_
  have hall := readBytes_eq_some_iff.1 hread
  obtain ⟨i, hi, rfl⟩ := List.getElem_of_mem hw
  exact absurd (hbad _ (hall.get hi (hall.length_eq ▸ hi))) (Nat.not_le.2 (byte_toNat_lt _))

/-- The RAM field as SAVE writes it reads back as its bytes. -/
theorem readBytes_ramField {bs : List Byte} (hne : bs ≠ []) :
    readBytes h (splitAtSep ',' (joinSep ',' (bs.map fun b => h.spell b.toNat))) = some bs := by
  have hsep : ∀ w ∈ bs.map fun b => h.spell b.toNat, ',' ∉ w :=
    List.forall_mem_map.2 fun b _ => (h.no_separator b.toNat).2
  rw [splitAtSep_joinSep (by simpa using hne) hsep, readBytes_eq_some_iff, List.forall₂_map_left_iff]
  exact List.forall₂_same.2 fun b _ => h.read_spell b.toNat

/-- A text is a record exactly if it has five fields, the first a numeral and the second RAM elements. -/
theorem ofText?_eq_some_iff {t : List Char} {rec : SaveRecord} : SaveRecord.ofText? h t = some rec ↔
    ∃ f₁ f₂, splitAtSep ';' t = [f₁, f₂, rec.irq, rec.nmi, rec.io] ∧ h.read f₁ = some rec.ramSize ∧
      readBytes h (splitAtSep ',' f₂) = some rec.ram := by
  constructor
  · intro hread
    unfold SaveRecord.ofText? at hread
    split at hread
    · rename_i f₁ f₂ f₃ f₄ f₅ hsplit
      split at hread
      · rename_i n bs hn hbs
        cases hread
        exact ⟨f₁, f₂, hsplit, hn, hbs⟩
      · cases hread
    · cases hread
  · rintro ⟨f₁, f₂, hsplit, hn, hbs⟩
    simp only [SaveRecord.ofText?, hsplit, hn, hbs]

/-- Five fields have four semicolons between them. -/
theorem ofText?_of_count_ne {t : List Char} (ht : t.count ';' ≠ 4) : SaveRecord.ofText? h t = none := by
  refine Option.eq_none_iff_forall_ne_some.2 fun rec hread => ht ?_
  obtain ⟨f₁, f₂, hsplit, -, -⟩ := ofText?_eq_some_iff.1 hread
  simpa [hsplit] using (length_splitAtSep ';' t).symm

/-- A text whose second field is no list of RAM elements is no record. -/
theorem ofText?_of_readBytes_eq_none {t f₁ f₂ f₃ f₄ f₅ : List Char} (ht : splitAtSep ';' t = [f₁, f₂, f₃, f₄, f₅])
    (hram : readBytes h (splitAtSep ',' f₂) = none) : SaveRecord.ofText? h t = none := by
  refine Option.eq_none_iff_forall_ne_some.2 fun rec hread => ?_
  obtain ⟨_, _, hsplit, -, hbs⟩ := ofText?_eq_some_iff.1 hread
  cases ht.symm.trans hsplit
  exact absurd (hram.symm.trans hbs) nofun

/-- The RAM field as SAVE writes it holds no semicolon. -/
theorem semicolon_not_mem_ramField (bs : List Byte) :
    ';' ∉ joinSep ',' (bs.map fun b => h.spell b.toNat) :=
  not_mem_joinSep (by decide) (List.forall_mem_map.2 fun b _ => (h.no_separator b.toNat).1)

/-- The text of a record reads back as the record (R106, R107). -/
theorem ofText?_toText {rec : SaveRecord} (hram : rec.ram ≠ []) (hirq : ';' ∉ rec.irq) (hnmi : ';' ∉ rec.nmi)
    (hio : ';' ∉ rec.io) : SaveRecord.ofText? h (rec.toText h) = some rec :=
  ofText?_eq_some_iff.2 ⟨_, _,
    splitAtSep_joinSep_five (h.no_separator _).1 (semicolon_not_mem_ramField _) hirq hnmi hio,
    h.read_spell _, readBytes_ramField hram⟩

end

/-- A record with an illegal size or a RAM field of another length has no RAM size (R109). -/
theorem size?_eq_none {rec : SaveRecord}
    (hbad : (rec.ramSize ≠ 8192 ∧ rec.ramSize ≠ 16384 ∧ rec.ramSize ≠ 32768) ∨ rec.ram.length ≠ rec.ramSize) :
    rec.size? = none := by
  refine Option.eq_none_iff_forall_ne_some.2 fun rs hsize => ?_
  obtain ⟨hbytes, hlength⟩ := size?_eq_some.1 hsize
  have hlegal := Machine.exists_bytes_eq_iff.1 ⟨rs, hbytes⟩
  omega

end Sys2Proof

namespace Sys2Proof.Machine

/-! ### From a buffer to its bytes and back -/

section
variable {base : Nat → Byte}

/-- The buffer built from a list is read as that list. -/
theorem toBytes_ofBytes (vs : List Byte) : (Memory.ofBytesFrom base 0 vs).toBytes base vs.length = vs := by
  refine List.ext_getElem? fun i => ?_
  by_cases hi : i < vs.length
  · rw [toBytes_getElem? _ hi, read_ofBytesFrom, if_pos (Nat.zero_le i), Nat.sub_zero, List.getD_eq_getElem _ _ hi,
      List.getElem?_eq_getElem hi]
  · rw [List.getElem?_eq_none (by simpa using hi), List.getElem?_eq_none (Nat.not_lt.1 hi)]

/-- The bytes of a canonical buffer build that very buffer: both are canonical, and read alike. -/
theorem ofBytes_toBytes {n : Nat} {m : Memory} (hm : m.wf base n = true) :
    Memory.ofBytesFrom base 0 (m.toBytes base n) = m := by
  refine eq_of_read_eq (wf_ofBytes (toBytes_length m n).le) hm fun x => ?_
  rw [read_ofBytesFrom, if_pos (Nat.zero_le x), Nat.sub_zero, List.getD_eq_getElem?_getD]
  by_cases hx : x < n
  · rw [toBytes_getElem? m hx, Option.getD_some]
  · rw [List.getElem?_eq_none (by simpa using hx), Option.getD_none, read_beyond hm (Nat.not_lt.1 hx)]

end

/-! ### SAVE (R105) -/

/-- SAVE as one update of the state. -/
theorem exec_save_eq (s : State) : exec .save s =
    .next { s with response := .record s.saveRecord, trace := s.trace ++ [.io s.io .saveState] } := rfl

/-- Settles O29: the record is read off the buffer from index 0 on. -/
theorem saveReturnsRamInOrder : Obligations.SaveReturnsRamInOrder := fun s =>
  ⟨s.saveRecord, exec_save_eq s, rfl, toBytes_length _ _, fun _ hi => toBytes_getElem? _ hi, rfl, rfl, rfl⟩

/-! ### RESTORE (R108, R109) -/

/-- RESTORE of a well-formed record, a tuple or a text, puts the record in. -/
theorem exec_restore_of_size {r : RecordOperand} {rec : SaveRecord} {rs : RamSize}
    (hr : r.record? Config.hexSpelling = some rec) (hsize : rec.size? = some rs) (s : State) :
    exec (.restore r) s = .next (s.restored rs rec) :=
  execRestore_next.2 ⟨rec, rs, hr, hsize, rfl⟩

theorem exec_restore_of_malformed {r : RecordOperand} {rec : SaveRecord}
    (hr : r.record? Config.hexSpelling = some rec) (hsize : rec.size? = none) (s : State) :
    exec (.restore r) s = .refused .malformedRecord := by
  simp only [exec, execRestore, hr, hsize]

theorem exec_restore_of_no_record {r : RecordOperand} (hr : r.record? Config.hexSpelling = none) (s : State) :
    exec (.restore r) s = .refused .malformedRecord := by
  simp only [exec, execRestore, hr]

/-- RESTORE asks of its operand only which record it stands for. -/
theorem exec_restore_congr {r r' : RecordOperand}
    (hr : r.record? Config.hexSpelling = r'.record? Config.hexSpelling) (s : State) :
    exec (.restore r) s = exec (.restore r') s := by
  simp only [exec, execRestore, hr]

/-- Settles O30: the record is put in, and read from the buffer byte by byte. -/
theorem restoreReplacesSizeAndRam : Obligations.RestoreReplacesSizeAndRam := by
  intro r rec rs s hr hsize hlength
  have hwf : rec.size? = some rs := size?_eq_some.2 ⟨hsize, hlength.trans hsize⟩
  refine ⟨s.restored rs rec, exec_restore_of_size hr hwf s, rfl, fun i hi => ?_⟩
  rw [ramAt_restored, List.getD_eq_getElem _ _ hi]

/-- Settles O31: each malformation leaves RESTORE without a record, or the record without a size. -/
theorem malformedRecordIsRefused : Obligations.MalformedRecordIsRefused := by
  refine ⟨fun r rec s hr hbad => exec_restore_of_malformed hr (size?_eq_none hbad) s,
    fun text s htext => exec_restore_of_no_record (r := .text text) htext s,
    fun h text hcount => ofText?_of_count_ne hcount, ?_⟩
  intro h f₁ f₂ f₃ f₄ f₅ w h₁ h₂ h₃ h₄ h₅ hw hbad
  have hjoin : f₁ ++ ';' :: f₂ ++ ';' :: f₃ ++ ';' :: f₄ ++ ';' :: f₅ = joinSep ';' [f₁, f₂, f₃, f₄, f₅] := by
    simp [joinSep]
  rw [hjoin]
  exact ofText?_of_readBytes_eq_none (splitAtSep_joinSep_five h₁ h₂ h₃ h₄ h₅) (readBytes_eq_none_of_mem hw hbad)

/-- Settles O34: both operands stand for the same record. -/
theorem recordTextRoundTrips : Obligations.RecordTextRoundTrips := fun rec hram hirq hnmi hio =>
  ⟨fun _ => ofText?_toText hram hirq hnmi hio,
    exec_restore_congr (r := .text (rec.toText Config.hexSpelling)) (r' := .tuple rec)
      (ofText?_toText hram hirq hnmi hio)⟩

/-! ### One after the other (R110) -/

/-- A SAVE after a well-formed record was put in reads the record's size and bytes. -/
theorem saveRecord_restored {rec : SaveRecord} {rs : RamSize} (hsize : rec.size? = some rs) (s : State) :
    (s.restored rs rec).saveRecord.ramSize = rec.ramSize ∧ (s.restored rs rec).saveRecord.ram = rec.ram := by
  obtain ⟨hbytes, hlength⟩ := size?_eq_some.1 hsize
  refine ⟨hbytes.symm, ?_⟩
  simpa [hlength] using toBytes_ofBytes (base := ramBase s.params) rec.ram

/-- Settles O33: the record was well formed, since RESTORE completed. -/
theorem saveOfRestoreReturnsRecord : Obligations.SaveOfRestoreReturnsRecord := by
  intro s t r rec hr h
  obtain ⟨rec', rs, hr', hsize, rfl⟩ := execRestore_next.1 h
  cases hr.symm.trans hr'
  exact ⟨_, _, exec_save_eq _, rfl, saveRecord_restored hsize s⟩

/-- Putting back what SAVE read from a block in form leaves the buffer it was read from. -/
theorem restored_saveRecord_ram {s t : State} (hs : s.Inv) (hparams : t.params = s.params) :
    (t.restored s.ramSize s.saveRecord).ram = s.ram := by
  rw [restored_ram, saveRecord_ram, hparams, ofBytes_toBytes hs.ram_wf]

/-- Settles O32: SAVE returns a well-formed record and changes neither ROM nor an open value; the second SAVE is O33. -/
theorem restoreOfSaveIsIdentity : Obligations.RestoreOfSaveIsIdentity := by
  intro s t rec hs hsave hrec
  have hrom : t.rom = s.rom := onlyLoadRomChangesRom .save s t rfl hsave
  obtain ⟨-, -, hparams⟩ := exec_keeps_references hsave
  obtain rfl : s.saveRecord = rec := by
    cases (exec_save_eq s).symm.trans hsave
    exact Response.record.inj hrec
  have hrestore := exec_restore_of_size (r := .tuple s.saveRecord) rfl (size?_saveRecord s) t
  exact ⟨_, hrestore, restored_ramSize _ _ _, restored_saveRecord_ram hs hparams, (restored_rom _ _ _).trans hrom,
    saveOfRestoreReturnsRecord _ _ (.tuple s.saveRecord) _ rfl hrestore⟩

end Sys2Proof.Machine

/-! # Completion and refusal (60_exceptions.md)

There is no fault, so an operation that does not complete is refused. One lemma says which operations complete
(`exec_completes_iff`): exactly those with a meaning. -/

namespace Sys2Proof.Machine

/-! ### Which requests have a meaning -/

/-- RESIZE has a meaning for a legal size inside the window (41_host_control.md R93, R94). -/
theorem hasMeaning_resize_iff {n : BitVec 16} {s : State} :
    hasMeaning (.resize n) s = true ↔ ∃ rs, RamSize.ofBytes? n.toNat = some rs ∧ s.window = true := by
  simp [hasMeaning, Instr.wf, needsWindow, Option.isSome_iff_exists]

/-- RESTORE has a meaning for a well-formed record (42_snapshot.md R109). -/
theorem hasMeaning_restore_iff {r : RecordOperand} {s : State} :
    hasMeaning (.restore r) s = true ↔
      ∃ rec rs, r.record? Config.hexSpelling = some rec ∧ rec.size? = some rs := by
  cases hr : r.record? Config.hexSpelling <;>
    simp [hasMeaning, Instr.wf, needsWindow, hr, Option.isSome_iff_exists]

/-! ### Which requests complete -/

/-- An operation completes exactly if it has a meaning: RESIZE and RESTORE may lack one, the reserved row always does. -/
theorem exec_completes_iff (i : Instr) (s : State) : (∃ t, exec i s = .next t) ↔ hasMeaning i s = true := by
  cases i with
  | resize n =>
    rw [hasMeaning_resize_iff]
    constructor
    · rintro ⟨t, h⟩
      obtain ⟨rs, hn, hw, -⟩ := execResize_next.1 h
      exact ⟨rs, hn, hw⟩
    · rintro ⟨rs, hn, hw⟩
      exact ⟨_, execResize_next.2 ⟨rs, hn, hw, rfl⟩⟩
  | restore r =>
    rw [hasMeaning_restore_iff]
    constructor
    · rintro ⟨t, h⟩
      obtain ⟨rec, rs, hr, hsize, -⟩ := execRestore_next.1 h
      exact ⟨rec, rs, hr, hsize⟩
    · rintro ⟨rec, rs, hr, hsize⟩
      exact ⟨_, exec_restore_of_size hr hsize s⟩
  | reservedOp7 x => exact ⟨nofun, nofun⟩
  | _ => exact ⟨fun _ => rfl, fun _ => ⟨_, rfl⟩⟩

/-- There being no fault, an operation is refused exactly if it does not complete (R115). -/
theorem exec_refused_iff (i : Instr) (s : State) : (∃ r, exec i s = .refused r) ↔ ¬∃ t, exec i s = .next t := by
  cases exec i s with
  | next t => simp
  | fault f => nomatch f
  | refused r => simp

/-- RESET, RESIZE, LOADROM and RESTORE return no status (R115). -/
theorem exec_response_none {i : Instr} {s t : State}
    (hi : i = .reset ∨ (∃ n, i = .resize n) ∨ (∃ b bytes, i = .loadRom b bytes) ∨ ∃ r, i = .restore r)
    (h : exec i s = .next t) : t.response = .none := by
  obtain rfl | ⟨n, rfl⟩ | ⟨b, bytes, rfl⟩ | ⟨r, rfl⟩ := hi
  · cases h
    rfl
  · obtain ⟨rs, -, -, rfl⟩ := execResize_next.1 h
    rfl
  · cases h
    rfl
  · obtain ⟨rec, rs, -, -, rfl⟩ := execRestore_next.1 h
    rfl

/-- Settles O45: what has a meaning completes, and what completes keeps the block in form. -/
theorem everyMeaningfulOperationCompletes : Obligations.EveryMeaningfulOperationCompletes := by
  refine ⟨nofun, fun i s hmeaning => ?_⟩
  obtain ⟨t, h⟩ := (exec_completes_iff i s).2 hmeaning
  exact ⟨t, h, fun hs => exec_inv hs h, fun hi => exec_response_none hi h⟩

/-- Settles O46: what is refused is what does not complete. -/
theorem refusedExactlyWithoutMeaning : Obligations.RefusedExactlyWithoutMeaning := by
  intro i s
  rw [exec_refused_iff, exec_completes_iff, Bool.not_eq_true]

end Sys2Proof.Machine

/-! # Boot and hazards (70_reset_and_hazards.md)

The boot order is a run of operations, cut where R134 numbers its parts: each part completes, and the next is run in the
state it leaves (`execAll_append`). A port event that is no request is settled by whether the block lives. -/

namespace Sys2Proof.Machine

/-! ### The boot order (R134) -/

/-- After a run that completes, a further run begins in the state it left. -/
theorem execAll_append {is js : List Instr} {s t : State} (h : execAll is s = .next t) :
    execAll (is ++ js) s = execAll js t := by
  induction is generalizing s with
  | nil => cases h; rfl
  | cons i is ih =>
    simp only [execAll, List.cons_append] at h ⊢
    split at h
    · exact ih h
    · cases h
    · cases h

theorem execAll_singleton {i : Instr} {s t : State} (h : exec i s = .next t) : execAll [i] s = .next t := by
  simp only [execAll, h]

/-- ROM images are loaded in every state, in any number, and the RAM size is kept (R96, R97). -/
theorem execAll_loadRoms (images : List (Addr × List Byte)) (s : State) :
    ∃ t, execAll (images.map fun im => .loadRom im.1 im.2) s = .next t ∧ t.ramSize = s.ramSize := by
  induction images generalizing s with
  | nil => exact ⟨s, rfl, rfl⟩
  | cons im images ih => exact ih (s.setRom (loadRomFrom (romBase s.params) s.rom im.1.toNat im.2) |>.respond .none)

/-- RESET completes, opens the window and keeps the RAM size (R91(b), R91(d)). -/
theorem exec_reset_opens_window (s : State) :
    ∃ t, exec .reset s = .next t ∧ t.window = true ∧ t.ramSize = s.ramSize := ⟨_, exec_reset_eq s, rfl, rfl⟩

/-- A legal size is a 16-bit operand of RESIZE, whole (30_encoding.md R67). -/
theorem toNat_ofNat_bytes (rs : RamSize) : (BitVec.ofNat 16 rs.bytes).toNat = rs.bytes :=
  Nat.mod_eq_of_lt (by have := bytes_le rs; omega)

/-- Inside the window an optional RESIZE to a legal size completes, sets that size, and leaves the window open (R92). -/
theorem execAll_optional_resize (size : Option RamSize) {s : State} (hw : s.window = true) :
    ∃ t, execAll (size.map fun rs => Instr.resize (BitVec.ofNat 16 rs.bytes)).toList s = .next t ∧
      t.window = true ∧ t.ramSize = size.getD s.ramSize := by
  cases size with
  | none => exact ⟨s, rfl, hw, rfl⟩
  | some rs => exact ⟨_, execAll_singleton (exec_resize_of_legal (toNat_ofNat_bytes rs) hw), hw, rfl⟩

/-- Settles O44: the images leave the RAM size of power-on, RESET opens the window in which RESIZE is issued, and the
READ closes it. -/
theorem bootOrderCompletes : Obligations.BootOrderCompletes := by
  intro p v io images size a
  obtain ⟨s₁, himages, hsize₁⟩ := execAll_loadRoms images (State.powerOn p v io)
  obtain ⟨s₂, hreset, hopen, hsize₂⟩ := exec_reset_opens_window s₁
  obtain ⟨s, hresize, hwindow, hsize⟩ := execAll_optional_resize size hopen
  refine ⟨s, _, ?_, hwindow, hsize.trans (congrArg size.getD (hsize₂.trans hsize₁)), execRead_eq a s, rfl⟩
  rw [List.append_assoc, execAll_append himages, execAll_append (execAll_singleton hreset), hresize]

/-! ### Port events that are no request (R133, R139) -/

theorem step_of_nothing_pending {s : State} (h : s.pending = []) : step s = .next s.tick := by
  simp only [step, h]

theorem serve_overlap_of_live {s : State} (h : s.live = true) (r₁ r₂ : Request) :
    serve (.overlap r₁ r₂) s = .refused .overlappingOperations := if_pos h

theorem serve_teardown_of_live {s : State} (h : s.live = true) :
    serve .teardown s = .next ((s.setLive false).respond .none) := if_pos h

/-- After teardown no port event has a meaning (R133). -/
theorem serve_of_torn_down {s : State} (h : s.live = false) (e : PortEvent) : serve e s = .refused .afterTeardown := by
  simp [serve, h]

/-- Settles O51: taking the event from the queue leaves the block as alive as it was. -/
theorem portEventsThatAreNoRequest : Obligations.PortEventsThatAreNoRequest := by
  refine fun s => ⟨step_of_nothing_pending, fun r₁ r₂ rest hlive hpending => ?_, fun rest hlive hpending => ?_,
    fun e rest hdead hpending => ?_⟩
  all_goals rw [step_of_pending hpending]
  · exact serve_overlap_of_live (s := s.taking rest) hlive r₁ r₂
  · exact serve_teardown_of_live (s := s.taking rest) hlive
  · exact serve_of_torn_down (s := s.taking rest) hdead e

end Sys2Proof.Machine

/-! # Words of the test vectors (95_test_vectors.md V-OPW, V-DEC)

A word that stands for a row is the encoder's word for it; a refused word is reserved and has another code than `op` = 111. -/

namespace Sys2Proof.Machine

/-- A reserved word is rejected if it is not of the reserved row: that row's words are those with `op` = 111 (R68). -/
theorem decode_eq_error_of_reservedWord {w : BitVec 32} (h : reservedWord w) (hop : opField w ≠ 7#3) (rs : RamSize)
    (side : SideBand) : decode rs (.opw w side) = .error .reservedEncoding := by
  refine (decodeOpw_of_reservedWord h side).resolve_right fun ⟨x, hx⟩ => hop ?_
  have hword : 0b111#3 ++ x = w := (Request.opw.inj (encode_of_decodeOpw hx)).1
  exact (pattern_eq_iff.1 hword).1

/-- Settles O4: twelve words are encodings of rows in force, so they decode. In the thirteenth `data8` is not zero
where READ needs it zero, in the fourteenth `rsv` is not zero. -/
theorem sampleWordsDecode : Obligations.SampleWordsDecode := by
  have hdata : reservedWord 0x00040101#32 := .inr (.inr (.inl (by decide)))
  have hrsv : reservedWord 0x01040100#32 := .inr (.inl (by decide))
  refine ⟨?_, ?_, ?_, ?_, ?_, ?_, ?_, ?_, ?_, ?_, ?_, ?_, decode_eq_error_of_reservedWord hdata (by decide) _ _,
    decode_eq_error_of_reservedWord hrsv (by decide) _ _⟩
  all_goals exact decode_eq_ok_iff.2 ⟨rfl, rfl⟩

end Sys2Proof.Machine
